-- ==== Sys2Proof/Word.lean ====
section
/-! DEFINITION. The word of the machine (00_scope.md R7, R9) and the index of a general register. -/

namespace Sys2Proof

/-- A register value, memory cell, immediate or flags value: an unsigned integer in 0..255 (R9).
The width 8 is the spec's decision D1 (log entry 5). -/
abbrev Byte := BitVec 8

/-- The index of a general register, 0..7 (10_state.md R21). -/
abbrev RegIndex := Fin 8

end Sys2Proof
end

