-- ==== Sys2Proof/Config.lean ====
section
/-! DEFINITION. What an implementation fixes (00_scope.md R7): sizes, reset values, and the named parameters OPCODE and EXIT_CODE. -/

namespace Sys2Proof

/-- The closed enumeration of instruction kinds (30_encoding.md R65), in the order of the opcode table. -/
inductive Mnemonic
  | hlt | ldi | prn | mul | add | and | or | xor | not | shl | cmp
  | push | pop | call | ret | jmp | jeq | jne
deriving DecidableEq, Repr

/-- Every instruction kind, once (00_scope.md R5). -/
def Mnemonic.all : List Mnemonic :=
  [.hlt, .ldi, .prn, .mul, .add, .and, .or, .xor, .not, .shl, .cmp,
   .push, .pop, .call, .ret, .jmp, .jeq, .jne]

namespace Config

/-- MEM_SIZE: the number of memory cells (R7). -/
def memSize : Nat := 256

/-- SP_INIT, the reset value of R7 and the empty-stack sentinel (R7, 10_state.md R33). -/
def spInit : Byte := 0xF4

/-- The reset value of the program counter (R7, R33). -/
def resetPc : Nat := 0

/-- The reset value of FL. DESIGN CHOICE of the spec, decision D5 (log entry 7). -/
def resetFlags : Byte := 0x00

/-- What a memory cell that nothing has written reads as: memory is zero-initialized (R33, R34; log entry 22). -/
def unlistedByte : Byte := 0x00

/-- Parameter OPCODE: an injective map from mnemonic to opcode byte (92_eei_decisions.md D2). -/
structure OpcodeMap where
  /-- The opcode byte of each instruction kind. -/
  byte : Mnemonic → Byte
  /-- No two instruction kinds share an opcode byte. -/
  injective : ∀ m n, byte m = byte n → m = n

end Config

end Sys2Proof
end

