-- ==== Sys2Proof/Syntax.lean ====
section
/-! DEFINITION. The instructions: one constructor per row of spec/opcode_table.json. -/

namespace Sys2Proof

/-- An instruction with its operand bytes as they stand in the program (30_encoding.md R61, R62).
A register operand is the whole operand byte; `Instr.WellFormed` says that it names a register. -/
inductive Instr
  /-- HLT (R100). -/
  | hlt
  /-- LDI r, imm (R101). -/
  | ldi (r imm : Byte)
  /-- PRN r (R102). -/
  | prn (r : Byte)
  /-- MUL a, b (R113). -/
  | mul (a b : Byte)
  /-- ADD a, b (R112). -/
  | add (a b : Byte)
  /-- AND a, b (R114). -/
  | and (a b : Byte)
  /-- OR a, b (R115). -/
  | or (a b : Byte)
  /-- XOR a, b (R116). -/
  | xor (a b : Byte)
  /-- NOT a (R117). -/
  | not (a : Byte)
  /-- SHL a, b (R118). -/
  | shl (a b : Byte)
  /-- CMP a, b (R119). -/
  | cmp (a b : Byte)
  /-- PUSH r (R131). -/
  | push (r : Byte)
  /-- POP r (R133). -/
  | pop (r : Byte)
  /-- CALL r (R141). -/
  | call (r : Byte)
  /-- RET r (R143). -/
  | ret (r : Byte)
  /-- JMP r (R144). -/
  | jmp (r : Byte)
  /-- JEQ r (R145). -/
  | jeq (r : Byte)
  /-- JNE r (R146). -/
  | jne (r : Byte)
deriving DecidableEq, Repr

end Sys2Proof
end

