-- ==== Sys2Proof/WellFormed.lean ====
section
/-! DEFINITION. Well-formed instructions: every register operand byte is 0..7 (30_encoding.md R62, R67). -/

namespace Sys2Proof

/-- The register operands of an instruction in increasing position: every operand except LDI's second (40_cycle.md R86). -/
def Instr.regOperands : Instr → List Byte
  | .hlt => []
  | .ldi r _ => [r]
  | .prn r => [r]
  | .mul a b => [a, b]
  | .add a b => [a, b]
  | .and a b => [a, b]
  | .or a b => [a, b]
  | .xor a b => [a, b]
  | .not a => [a]
  | .shl a b => [a, b]
  | .cmp a b => [a, b]
  | .push r => [r]
  | .pop r => [r]
  | .call r => [r]
  | .ret r => [r]
  | .jmp r => [r]
  | .jeq r => [r]
  | .jne r => [r]

/-- Every register operand names one of R0 to R7; the immediate may be any byte (R67). -/
abbrev Instr.WellFormed (i : Instr) : Prop :=
  ∀ b ∈ i.regOperands, b.toNat ≤ 7

/-- The first register operand that names no register, if there is one (R86). -/
def Instr.badRegister (i : Instr) : Option Byte :=
  i.regOperands.find? fun b => decide (7 < b.toNat)

/-- The operand byte that names register `i`. -/
def regByte (i : RegIndex) : Byte := BitVec.ofNat 8 i.val

end Sys2Proof
end

