-- ==== Sys2Proof/Decode.lean ====
section
/-! DEFINITION. Decoding and encoding (30_encoding.md R60 to R68), over any opcode map; the default map of R63; and the
reading of a row of spec/opcode_table.json. -/

namespace Sys2Proof

/-- The four instruction formats (R61). -/
inductive Format
  | n | r | rr | ri
deriving DecidableEq, Repr

/-- The number of operand bytes of a format (R61, 40_cycle.md R84). -/
def Format.operandCount : Format → Nat
  | .n => 0
  | .r => 1
  | .rr => 2
  | .ri => 2

/-- The format of each instruction: the table of R63. NOT has one operand (decision D3) and so has RET (90_conflicts.md C5);
log entry 16. -/
def Mnemonic.format : Mnemonic → Format
  | .hlt => .n
  | .ldi => .ri
  | .prn => .r
  | .mul => .rr
  | .add => .rr
  | .and => .rr
  | .or => .rr
  | .xor => .rr
  | .not => .r
  | .shl => .rr
  | .cmp => .rr
  | .push => .r
  | .pop => .r
  | .call => .r
  | .ret => .r
  | .jmp => .r
  | .jeq => .r
  | .jne => .r

/-- The instruction length in bytes: operand count + 1 (R60). -/
def Mnemonic.length (m : Mnemonic) : Nat := m.format.operandCount + 1

/-- The default opcode bytes of R63. PRESUMED by the spec from general knowledge of the LS-8 machine (D2; log entry 3). -/
def defaultOpcode : Mnemonic → Byte
  | .hlt => 0x01
  | .ldi => 0x82
  | .prn => 0x47
  | .mul => 0xA2
  | .add => 0xA0
  | .and => 0xA8
  | .or => 0xAA
  | .xor => 0xAB
  | .not => 0x69
  | .shl => 0xAC
  | .cmp => 0xA7
  | .push => 0x45
  | .pop => 0x46
  | .call => 0x50
  | .ret => 0x11
  | .jmp => 0x54
  | .jeq => 0x55
  | .jne => 0x56

/-- The default opcode bytes are pairwise distinct (D2). -/
theorem defaultOpcode_injective (m n : Mnemonic) (h : defaultOpcode m = defaultOpcode n) : m = n := by
  cases m <;> cases n <;> first | rfl | exact absurd h (by decide)

/-- The default value of parameter OPCODE (R63). -/
def defaultOpcodes : Config.OpcodeMap := ⟨defaultOpcode, defaultOpcode_injective⟩

/-- The dispatch table: the instruction kind whose opcode byte is exactly `op` (R65). -/
def lookup (opc : Config.OpcodeMap) (op : Byte) : Option Mnemonic :=
  Mnemonic.all.find? fun m => opc.byte m == op

/-- Why bytes are no instruction. -/
inductive DecodeError
  /-- Byte `k` of the instruction is not there (40_cycle.md R81, R85). -/
  | missingByte (k : Nat)
  /-- The opcode byte spells no instruction (R66). -/
  | unknownOpcode (op : Byte)
  /-- A register operand byte is above 7 (R62, R67). -/
  | badRegister (b : Byte)
deriving DecidableEq, Repr

/-- An instruction and the bytes after it, if its register operands are 0..7; the first that is not, otherwise (40_cycle.md R86). -/
def checkRegisters (i : Instr) (rest : List Byte) : Except DecodeError (Instr × List Byte) :=
  match i.badRegister with
  | none => .ok (i, rest)
  | some b => .error (.badRegister b)

/-- Format R: one operand byte after the opcode. -/
def takeOne (c : Byte → Instr) : List Byte → Except DecodeError (Instr × List Byte)
  | [] => .error (.missingByte 1)
  | r :: rest => checkRegisters (c r) rest

/-- Formats RR and RI: two operand bytes after the opcode. -/
def takeTwo (c : Byte → Byte → Instr) : List Byte → Except DecodeError (Instr × List Byte)
  | [] => .error (.missingByte 1)
  | [_] => .error (.missingByte 2)
  | a :: b :: rest => checkRegisters (c a b) rest

/-- The operands of an instruction of kind `m`, read from the bytes after its opcode. -/
def takeOperands (m : Mnemonic) (rest : List Byte) : Except DecodeError (Instr × List Byte) :=
  match m with
  | .hlt => .ok (.hlt, rest)
  | .ldi => takeTwo .ldi rest
  | .prn => takeOne .prn rest
  | .mul => takeTwo .mul rest
  | .add => takeTwo .add rest
  | .and => takeTwo .and rest
  | .or => takeTwo .or rest
  | .xor => takeTwo .xor rest
  | .not => takeOne .not rest
  | .shl => takeTwo .shl rest
  | .cmp => takeTwo .cmp rest
  | .push => takeOne .push rest
  | .pop => takeOne .pop rest
  | .call => takeOne .call rest
  | .ret => takeOne .ret rest
  | .jmp => takeOne .jmp rest
  | .jeq => takeOne .jeq rest
  | .jne => takeOne .jne rest

/-- The instruction at the head of a list of bytes and the bytes after it, or why there is none. The opcode byte is matched
whole, and the checks come in the order of 60_exceptions.md R155. -/
def decodeWith (opc : Config.OpcodeMap) : List Byte → Except DecodeError (Instr × List Byte)
  | [] => .error (.missingByte 0)
  | op :: rest =>
    match lookup opc op with
    | none => .error (.unknownOpcode op)
    | some m => takeOperands m rest

/-- Decoding with the default opcode map. -/
def decode (bytes : List Byte) : Except DecodeError (Instr × List Byte) :=
  decodeWith defaultOpcodes bytes

/-- The kind of an instruction. -/
def Instr.mnemonic : Instr → Mnemonic
  | .hlt => .hlt
  | .ldi _ _ => .ldi
  | .prn _ => .prn
  | .mul _ _ => .mul
  | .add _ _ => .add
  | .and _ _ => .and
  | .or _ _ => .or
  | .xor _ _ => .xor
  | .not _ => .not
  | .shl _ _ => .shl
  | .cmp _ _ => .cmp
  | .push _ => .push
  | .pop _ => .pop
  | .call _ => .call
  | .ret _ => .ret
  | .jmp _ => .jmp
  | .jeq _ => .jeq
  | .jne _ => .jne

/-- The operand bytes of an instruction in increasing address order (20_memory.md R45). -/
def Instr.operandBytes : Instr → List Byte
  | .ldi r imm => [r, imm]
  | .hlt => []
  | .prn r => [r]
  | .mul a b => [a, b]
  | .add a b => [a, b]
  | .and a b => [a, b]
  | .or a b => [a, b]
  | .xor a b => [a, b]
  | .not a => [a]
  | .shl a b => [a, b]
  | .cmp a b => [a, b]
  | .push r => [r]
  | .pop r => [r]
  | .call r => [r]
  | .ret r => [r]
  | .jmp r => [r]
  | .jeq r => [r]
  | .jne r => [r]

/-- The bytes of an instruction: its opcode byte, then its operands (R60, R61). -/
def encodeWith (opc : Config.OpcodeMap) (i : Instr) : List Byte :=
  opc.byte i.mnemonic :: i.operandBytes

/-- Encoding with the default opcode map. -/
def encode (i : Instr) : List Byte := encodeWith defaultOpcodes i

/-- The length of the longest instruction in bytes (00_scope.md R7). -/
def maxLength : Nat := 3

/-- Byte `k` of a word of spec/opcode_table.json of `nbits` bits. The table numbers the word with byte 0, the opcode, as its most
significant byte (30_encoding.md section 5; log entry 4); bytes past the word are 0. -/
def tableByte (nbits w k : Nat) : Byte :=
  if 8 * (k + 1) ≤ nbits then BitVec.ofNat 8 (w >>> (nbits - 8 * (k + 1))) else 0

/-- The bytes of a table word in increasing address order, as many as the longest instruction has. -/
def tableBytes (nbits w : Nat) : List Byte :=
  (List.range maxLength).map (tableByte nbits w)

/-- The instruction the decoder reads from a word of spec/opcode_table.json. -/
def decodeTableWord (nbits w : Nat) : Option Instr :=
  match decode (tableBytes nbits w) with
  | .ok (i, _) => some i
  | .error _ => none

end Sys2Proof
end

