-- ==== Sys2Proof/Machine/State.lean ====
section
/-! DEFINITION. The state of the machine (10_state.md R20), its reasons to stop, and the state after reset (R33). -/

namespace Sys2Proof.Machine

/-- The fatal faults, with the info each records (60_exceptions.md R150). The machine itself enters `RunState.faulted` with one of
these; every one is the spec's own, so none is a departure (safe). -/
inductive FaultRecord
  /-- OutOfBounds(Memory, a): raised by a fetch, an operand read or CALL's return address above 255. -/
  | outOfBoundsMemory (a : Nat)
  /-- OutOfBounds(Register, i), the source's InvalidRegister: raised for a register operand byte above 7 (90_conflicts.md C2). -/
  | outOfBoundsRegister (i : Nat)
  /-- UnknownInstruction(op, pc): raised for an opcode byte outside the table. -/
  | unknownInstruction (op : Byte) (pc : Nat)
  /-- UnsupportedOperation(op): raised by the ALU alone, and by no instruction (42_alu.md R120; log entry 21). -/
  | unsupportedOperation (op : Mnemonic)
deriving DecidableEq, Repr

/-- The run state (10_state.md R30). -/
inductive RunState
  | running
  | halted
  | faulted (f : FaultRecord)
deriving DecidableEq, Repr

/-- A non-fatal report (60_exceptions.md R156). -/
inductive Report
  /-- EmptyStack(pc, r): POP or RET at address `pc` with register operand `r` found SP at the sentinel (decision D13, log entry 14). -/
  | emptyStack (pc : Nat) (r : RegIndex)
deriving DecidableEq, Repr

/-- Why `step` has no next state. Both are raised by `step` alone, in a terminal run state, where the spec says that no step is
enabled (40_cycle.md R80; log entry 2). Safe: nothing runs where the machine does not run. -/
inductive Fault
  /-- The machine is Halted: raised by `step`; safe. -/
  | halted
  /-- The machine is Faulted with this record: raised by `step`; safe. -/
  | faulted (f : FaultRecord)
deriving DecidableEq, Repr

/-- Why an instruction has no meaning in the model. -/
inductive Refusal
  /-- Raised by `exec` for an instruction not modelled yet; none is left; safe. -/
  | notModelled (mnemonic : String)
deriving DecidableEq, Repr

/-- The 256 cells of memory as (address, byte) pairs in one canonical form (`Memory.wf`): addresses strictly rising and below 256, and
no pair holding the byte that an unlisted address reads as. -/
abbrev Memory := List Host.Cell

/-- The architectural state (10_state.md R20). -/
structure State where
  /-- M, the memory that holds program and stack (20_memory.md R40). -/
  mem : Memory
  /-- R0 to R7; R7 is the stack pointer (R21, R22). -/
  regs : Vector Byte 8
  /-- FL, the flags register: E = bit 0, L = bit 1, G = bit 2 (R27). -/
  fl : Byte
  /-- The program counter, a natural number that never wraps (R24; log entry 6). -/
  pc : Nat
  /-- The run state (R30). -/
  run : RunState
  /-- The output stream written by PRN, oldest first (41_data_output.md R102). -/
  out : List Byte
  /-- The stream of non-fatal reports, oldest first (60_exceptions.md R156). -/
  diag : List Report
deriving DecidableEq, Repr

/-- The machine right after reset (10_state.md R33, 70_reset_and_hazards.md R180). -/
def State.reset : State where
  mem := []
  regs := #v[0, 0, 0, 0, 0, 0, 0, Config.spInit]
  fl := Config.resetFlags
  pc := Config.resetPc
  run := .running
  out := []
  diag := []

end Sys2Proof.Machine
end

