-- ==== Sys2Proof/Machine/Flags.lean ====
section
/-! DEFINITION. The flags byte: its three bits and the comparison that sets it (10_state.md R27, 42_alu.md R119). -/

namespace Sys2Proof.Machine

/-- E = FL[0], Equal (R27). -/
def State.flagE (s : State) : Bool := s.fl.getLsbD 0

/-- L = FL[1], Less-Than (R27). -/
def State.flagL (s : State) : Bool := s.fl.getLsbD 1

/-- G = FL[2], Greater-Than (R27). -/
def State.flagG (s : State) : Bool := s.fl.getLsbD 2

/-- The flags byte of an unsigned comparison: exactly one of E, L and G (R119). -/
def compareFlags (a b : Byte) : Byte :=
  if a = b then 0x01
  else if a.toNat < b.toNat then 0x02
  else 0x04

end Sys2Proof.Machine
end

