-- ==== Sys2Proof/Machine/Ops.lean ====
section
/-! DEFINITION. The named operations over memory, registers, streams and the program counter (00_scope.md R10 to R12), raising a fault,
and the PC sequencer that every instruction ends in (40_cycle.md R87, R88). -/

namespace Sys2Proof.Machine

/-- The byte in cell `a`; an unlisted cell holds its reset value. -/
def Memory.read : Memory → Nat → Byte
  | [], _ => Config.unlistedByte
  | c :: m, a => if c.1 = a then c.2 else Memory.read m a

/-- One cell put in front of a memory, or left out where it holds what an unlisted cell reads as. -/
def Memory.put (a : Nat) (v : Byte) (m : Memory) : Memory :=
  if v = Config.unlistedByte then m else (a, v) :: m

/-- Memory with byte `v` in cell `a`, in the canonical form. -/
def Memory.write : Memory → Nat → Byte → Memory
  | [], a, v => Memory.put a v []
  | c :: m, a, v =>
    if a < c.1 then Memory.put a v (c :: m)
    else if a = c.1 then Memory.put a v m
    else c :: Memory.write m a v

/-- The canonical form of memory. -/
abbrev Memory.wf (m : Memory) : Prop :=
  m.Pairwise (fun c d => c.1 < d.1) ∧ ∀ c ∈ m, c.1 < Config.memSize ∧ c.2 ≠ Config.unlistedByte

/-- The reduction mod 256 that every register write goes through; `mod` is the non-negative remainder (R9, R10). -/
def truncate (v : Int) : Byte := BitVec.ofInt 8 v

namespace State

/-- `x[i]`: general register `i` (R10). -/
def reg (s : State) (i : RegIndex) : Byte := s.regs.get i

/-- `x[i] <- v`: register `i` gets `v mod 256` (R10). -/
def setReg (s : State) (i : RegIndex) (v : Int) : State :=
  { s with regs := s.regs.set i (truncate v) }

/-- The index of the stack pointer: SP is R7 (10_state.md R22). -/
def spIndex : RegIndex := 7

/-- SP, another name for `x[7]` (R10). -/
def sp (s : State) : Byte := s.reg spIndex

/-- `MemRead(a, 1)` (R11). -/
def memRead (s : State) (a : Nat) : Except FaultRecord Byte :=
  if a < Config.memSize then .ok (s.mem.read a) else .error (.outOfBoundsMemory a)

/-- `MemWrite(a, 1, v)` (R11). -/
def memWrite (s : State) (a : Nat) (v : Byte) : Except FaultRecord State :=
  if a < Config.memSize then .ok { s with mem := s.mem.write a v } else .error (.outOfBoundsMemory a)

/-- `FL <- v` (R10). -/
def setFlags (s : State) (v : Byte) : State := { s with fl := v }

/-- `advance(n)`: the automatic advance by the instruction length (R12). -/
def advance (s : State) (n : Nat) : State := { s with pc := s.pc + n }

/-- `pc <- target` (R12). -/
def jump (s : State) (target : Byte) : State := { s with pc := target.toNat }

/-- `emit(v)`: one byte appended to the output stream (R12). -/
def emit (s : State) (v : Byte) : State := { s with out := s.out ++ [v] }

/-- `report R`: one report appended to the diagnostic stream; execution continues (R12). -/
def report (s : State) (r : Report) : State := { s with diag := s.diag ++ [r] }

/-- `halt` (R12). -/
def halt (s : State) : State := { s with run := .halted }

/-- `raise F(info)`: the one way a fault is taken. The run state becomes Faulted(F, info) and nothing else changes: no register is saved,
no mode changes, nothing is pushed and control goes nowhere (R12, 60_exceptions.md R152, R153; log entry 1). There is no return from it:
a Faulted machine is left only by reset (R154, R180). -/
def raise (s : State) (f : FaultRecord) : State := { s with run := .faulted f }

end State

/-- How Execute ends when it raises no fault: with the instruction's length, or with a target that it set the PC to (40_cycle.md R87). -/
inductive Sequel
  | next
  | jump (target : Byte)
deriving DecidableEq, Repr

/-- The PC sequencer (40_cycle.md R88) and the precision of faults (R89): the end of every instruction. On `next` the PC advances by the
instruction length, on `jump t` it becomes `t` with no advance, and a fault is raised in the state from before the instruction. -/
def pcSequencer (len : Nat) (s : State) (r : Except FaultRecord (State × Sequel)) :
    Host.Outcome State Fault Refusal :=
  match r with
  | .ok (t, .next) => .next (t.advance len)
  | .ok (t, .jump target) => .next (t.jump target)
  | .error f => .next (s.raise f)

/-- The stack's empty test compares SP with this value exactly (43_stack.md R130, R132). -/
def emptyStackSentinel : Byte := Config.spInit

/-- The PUSH mechanism (43_stack.md R131): SP is decremented mod 256, and then the byte that `v` reads in the state after the decrement is
written at the new SP (log entry 8). -/
def push (s : State) (v : State → Byte) : Except FaultRecord State :=
  let s₁ := s.setReg State.spIndex (s.sp.toNat - 1)
  s₁.memWrite s₁.sp.toNat (v s₁)

/-- The POP mechanism (43_stack.md R133), of POP and of RET: on an empty stack a report and nothing else; otherwise register `i` gets the
byte at SP and then SP, as register `i`'s write left it, is incremented mod 256 (log entries 8 and 9). -/
def pop (s : State) (i : RegIndex) : Except FaultRecord State :=
  if s.sp = emptyStackSentinel then
    .ok (s.report (.emptyStack s.pc i))
  else do
    let v ← s.memRead s.sp.toNat
    let s₁ := s.setReg i v.toNat
    return s₁.setReg State.spIndex (s₁.sp.toNat + 1)

/-- What a step answers in a terminal run state, where no step is enabled (40_cycle.md R80); none while Running (log entry 2). -/
def whenStopped (s : State) : Option (Host.Outcome State Fault Refusal) :=
  match s.run with
  | .running => none
  | .halted => some (.fault .halted)
  | .faulted f => some (.fault (.faulted f))

end Sys2Proof.Machine
end

