-- ==== Sys2Proof/Machine/Operands.lean ====
section
/-! DEFINITION. The operand forms: a register operand byte and SHL's count (30_encoding.md R62, 42_alu.md R118). -/

namespace Sys2Proof.Machine

/-- A register operand byte read as an unsigned index: 0..7, or OutOfBounds(Register, b). The byte is never masked
(30_encoding.md R62, 40_cycle.md R86; log entries 20 and 23). -/
def regIndex (b : Byte) : Except FaultRecord RegIndex :=
  if h : b.toNat < 8 then .ok ⟨b.toNat, h⟩ else .error (.outOfBoundsRegister b.toNat)

/-- Parameter SHL_COUNT: how SHL uses operand b, the full 8-bit value (00_scope.md R7, decision D19; log entry 15). -/
def shlCount (b : Byte) : Nat := b.toNat

end Sys2Proof.Machine
end

