-- ==== Sys2Proof/Machine/Alu.lean ====
section
/-! DEFINITION. The ALU as a pure function (42_alu.md R110, 40_cycle.md R94), its write back, and the meanings of ADD, MUL, AND, OR, XOR,
NOT, SHL and CMP (R112 to R119). -/

namespace Sys2Proof.Machine

/-- What the ALU returns: a result for operand a's register, if any, and a new flags byte, if any (R110). -/
structure AluOutput where
  result : Option Byte
  flags : Option Byte
deriving DecidableEq, Repr

/-- A result and no flag update. -/
def AluOutput.value (v : Byte) : AluOutput := ⟨some v, none⟩

/-- The ALU (R110). An operation outside its set is UnsupportedOperation (R120; log entry 21). -/
def alu (op : Mnemonic) (a b : Byte) : Except FaultRecord AluOutput :=
  match op with
  | .add => .ok (.value (truncate (a.toNat + b.toNat)))
  | .mul => .ok (.value (truncate (a.toNat * b.toNat)))
  | .and => .ok (.value (a &&& b))
  | .or => .ok (.value (a ||| b))
  | .xor => .ok (.value (a ^^^ b))
  | .not => .ok (.value (0xFF#8 ^^^ a))
  | .shl => .ok (.value (truncate (a.toNat * 2 ^ shlCount b)))
  | .cmp => .ok ⟨none, some (compareFlags a b)⟩
  | .hlt | .ldi | .prn | .push | .pop | .call | .ret | .jmp | .jeq | .jne =>
    .error (.unsupportedOperation op)

/-- The execute stage writes back what the ALU returned: the result to register `i`, the flag update to FL (R94, R110). -/
def writeBack (s : State) (i : RegIndex) (o : AluOutput) : State :=
  let s₁ := match o.result with
    | some v => s.setReg i v.toNat
    | none => s
  match o.flags with
  | some v => s₁.setFlags v
  | none => s₁

/-- A register-to-register ALU instruction (format RR): both indices are checked in order, both registers are read, and the output goes to
register a (R110). -/
def execRR (op : Mnemonic) (a b : Byte) (s : State) : Host.Outcome State Fault Refusal :=
  pcSequencer op.length s do
    let i ← regIndex a
    let j ← regIndex b
    let o ← alu op (s.reg i) (s.reg j)
    return (writeBack s i o, .next)

/-- ADD (R112). -/
def execAdd (a b : Byte) (s : State) : Host.Outcome State Fault Refusal := execRR .add a b s

/-- MUL (R113). -/
def execMul (a b : Byte) (s : State) : Host.Outcome State Fault Refusal := execRR .mul a b s

/-- AND (R114). -/
def execAnd (a b : Byte) (s : State) : Host.Outcome State Fault Refusal := execRR .and a b s

/-- OR (R115). -/
def execOr (a b : Byte) (s : State) : Host.Outcome State Fault Refusal := execRR .or a b s

/-- XOR (R116). -/
def execXor (a b : Byte) (s : State) : Host.Outcome State Fault Refusal := execRR .xor a b s

/-- NOT (R117): unary, so the ALU's second input is unused. -/
def execNot (a : Byte) (s : State) : Host.Outcome State Fault Refusal :=
  pcSequencer (Mnemonic.length .not) s do
    let i ← regIndex a
    let o ← alu .not (s.reg i) 0
    return (writeBack s i o, .next)

/-- SHL (R118). -/
def execShl (a b : Byte) (s : State) : Host.Outcome State Fault Refusal := execRR .shl a b s

/-- CMP (R119). -/
def execCmp (a b : Byte) (s : State) : Host.Outcome State Fault Refusal := execRR .cmp a b s

end Sys2Proof.Machine
end

