-- ==== Sys2Proof/Machine/Control.lean ====
section
/-! DEFINITION. The meanings of CALL, RET, JMP, JEQ and JNE (44_control_transfer.md R140 to R146). -/

namespace Sys2Proof.Machine

/-- The return address of a CALL as a byte: it must be a valid address, or the CALL faults before any write (R142, decision D8; log entry 10). -/
def returnAddress (s : State) : Except FaultRecord Byte :=
  let ret := s.pc + Mnemonic.length .call
  if ret < Config.memSize then .ok (truncate ret) else .error (.outOfBoundsMemory ret)

/-- CALL (R141): the target register is read after the push. -/
def execCall (r : Byte) (s : State) : Host.Outcome State Fault Refusal :=
  pcSequencer (Mnemonic.length .call) s do
    let i ← regIndex r
    let ret ← returnAddress s
    let t ← push s fun _ => ret
    return (t, .jump (t.reg i))

/-- RET (R143): the target register is read after the pop, and after a suppressed pop too (decision D7, log entry 9). -/
def execRet (r : Byte) (s : State) : Host.Outcome State Fault Refusal :=
  pcSequencer (Mnemonic.length .ret) s do
    let i ← regIndex r
    let t ← pop s i
    return (t, .jump (t.reg i))

/-- JMP (R144). -/
def execJmp (r : Byte) (s : State) : Host.Outcome State Fault Refusal :=
  pcSequencer (Mnemonic.length .jmp) s do
    let i ← regIndex r
    return (s, .jump (s.reg i))

/-- JEQ (R145). -/
def execJeq (r : Byte) (s : State) : Host.Outcome State Fault Refusal :=
  pcSequencer (Mnemonic.length .jeq) s do
    let i ← regIndex r
    return (s, if s.flagE then .jump (s.reg i) else .next)

/-- JNE (R146). -/
def execJne (r : Byte) (s : State) : Host.Outcome State Fault Refusal :=
  pcSequencer (Mnemonic.length .jne) s do
    let i ← regIndex r
    return (s, if s.flagE then .next else .jump (s.reg i))

end Sys2Proof.Machine
end

