-- ==== Sys2Proof/Machine/DataOutput.lean ====
section
/-! DEFINITION. The meanings of HLT, LDI and PRN (41_data_output.md R100 to R102). -/

namespace Sys2Proof.Machine

/-- HLT (R100): Halted, with the PC advanced past it (decision D11, log entry 12). -/
def execHlt (s : State) : Host.Outcome State Fault Refusal :=
  pcSequencer (Mnemonic.length .hlt) s (.ok (s.halt, .next))

/-- LDI (R101). -/
def execLdi (r imm : Byte) (s : State) : Host.Outcome State Fault Refusal :=
  pcSequencer (Mnemonic.length .ldi) s do
    let i ← regIndex r
    return (s.setReg i imm.toNat, .next)

/-- PRN (R102). -/
def execPrn (r : Byte) (s : State) : Host.Outcome State Fault Refusal :=
  pcSequencer (Mnemonic.length .prn) s do
    let i ← regIndex r
    return (s.emit (s.reg i), .next)

end Sys2Proof.Machine
end

