-- ==== Sys2Proof/Machine/Stack.lean ====
section
/-! DEFINITION. The meanings of PUSH and POP (43_stack.md R131, R133). -/

namespace Sys2Proof.Machine

/-- PUSH (R131): the register is read after SP's decrement. -/
def execPush (r : Byte) (s : State) : Host.Outcome State Fault Refusal :=
  pcSequencer (Mnemonic.length .push) s do
    let i ← regIndex r
    let t ← push s fun s₁ => s₁.reg i
    return (t, .next)

/-- POP (R133). -/
def execPop (r : Byte) (s : State) : Host.Outcome State Fault Refusal :=
  pcSequencer (Mnemonic.length .pop) s do
    let i ← regIndex r
    let t ← pop s i
    return (t, .next)

end Sys2Proof.Machine
end

