-- ==== Sys2Proof/Machine/Fetch.lean ====
section
/-! DEFINITION. Fetch, decode and operand read (40_cycle.md R81 to R86), and the placing of a table word where they read. -/

namespace Sys2Proof.Machine

/-- The bytes at pc, pc+1 and pc+2 that exist, in increasing address order: all that a fetch and its operand reads can see (R81, R85). -/
def fetchWindow (s : State) : List Byte :=
  (List.range maxLength).filterMap fun k => (s.memRead (s.pc + k)).toOption

/-- The fault that a failed decode raises for the instruction at `pc` (R82, R83, R85, R86). -/
def decodeFault (pc : Nat) : DecodeError → FaultRecord
  | .missingByte k => .outOfBoundsMemory (pc + k)
  | .unknownOpcode op => .unknownInstruction op pc
  | .badRegister b => .outOfBoundsRegister b.toNat

/-- The instruction at the program counter under an opcode map, or the first fault in the order of 60_exceptions.md R155. -/
def fetch (opc : Config.OpcodeMap) (s : State) : Except FaultRecord Instr :=
  match decodeWith opc (fetchWindow s) with
  | .ok (i, _) => .ok i
  | .error e => .error (decodeFault s.pc e)

/-- Bytes written to memory at `a`, `a + 1`, ...; addresses past the last cell are left out. -/
def writeBytes (m : Memory) (a : Nat) : List Byte → Memory
  | [] => m
  | v :: vs => writeBytes (if a < Config.memSize then m.write a v else m) (a + 1) vs

/-- Where a table word of `nbits` bits is placed: at the program counter, or at address 0 where it would run past the last cell (log entry 18). -/
def placeAt (s : State) (nbits : Nat) : Nat :=
  if s.pc + nbits / 8 ≤ Config.memSize then s.pc else 0

/-- `s` Running with the bytes of a table word at the program counter (log entry 18). -/
def placeWord (s : State) (nbits w : Nat) : State :=
  { s with
    mem := writeBytes s.mem (placeAt s nbits) (tableBytes nbits w)
    pc := placeAt s nbits
    run := .running }

end Sys2Proof.Machine
end

