-- ==== Sys2Proof/Machine/Step.lean ====
section
/-! DEFINITION. One step of the machine (40_cycle.md R90). -/

namespace Sys2Proof.Machine

/-- One step under an opcode map (R90): none enabled in a terminal run state (R80); otherwise fetch, decode and operand read, and then the
instruction, or the fault raised. -/
def stepWith (opc : Config.OpcodeMap) (s : State) : Host.Outcome State Fault Refusal :=
  match whenStopped s with
  | some o => o
  | none =>
    match fetch opc s with
    | .ok i => exec i s
    | .error f => .next (s.raise f)

/-- One step under the default opcode map (30_encoding.md R63). -/
def step (s : State) : Host.Outcome State Fault Refusal := stepWith defaultOpcodes s

/-- `s` with a word of spec/opcode_table.json stored where `step` fetches its next instruction. -/
def State.withFetchWord (s : State) (nbits w : Nat) : State := placeWord s nbits w

end Sys2Proof.Machine
end

