-- ==== Sys2Proof/Machine/Ports.lean ====
section
/-! DEFINITION. The ports between the core and its host (60_exceptions.md R170 to R175, 70_reset_and_hazards.md R180): reset, load, the run loop,
exit status, console lines and trace. No port changes a machine that runs. -/

namespace Sys2Proof.Machine

/-- The reset port: the full reset state from any state (R180, decision D15; log entry 25). -/
def resetPort (_ : State) : State := State.reset

/-- A host load error: the machine does not start (R172, decision D17; log entry 19). -/
inductive LoadError
  /-- More values than memory has cells. -/
  | tooManyValues (n : Nat)
  /-- A value that is no byte. -/
  | valueTooLarge (v : Nat)
deriving DecidableEq, Repr

/-- The load port: a program's values written to memory from address 0; every other cell keeps its contents (R172). -/
def loadProgram (prog : List Nat) (s : State) : Except LoadError State :=
  if Config.memSize < prog.length then .error (.tooManyValues prog.length)
  else
    match prog.find? fun v => decide (255 < v) with
    | some v => .error (.valueTooLarge v)
    | none => .ok { s with mem := writeBytes s.mem 0 (prog.map (BitVec.ofNat 8)) }

/-- A line of characters without the white space at its two ends. -/
def trimLine (l : List Char) : List Char :=
  ((l.dropWhile Char.isWhitespace).reverse.dropWhile Char.isWhitespace).reverse

/-- The value of a list of binary digits, the most significant first. -/
def binaryValue (l : List Char) : Nat :=
  l.foldl (fun n c => 2 * n + (if c = '1' then 1 else 0)) 0

/-- One line of a program's text: what stands before the comment delimiter, trimmed, as a base-2 integer; none where it is none (R172).
Only the digits 0 and 1 are read (log entry 19). -/
def parseLine (l : List Char) : Option Nat :=
  let d := trimLine (l.takeWhile fun c => c != '#')
  if d.isEmpty || d.any (fun c => c != '0' && c != '1') then none else some (binaryValue d)

/-- A program's text: its lines' values in order, with the lines that do not parse skipped (R172). -/
def parseText (ls : List (List Char)) : List Nat := ls.filterMap parseLine

/-- The interpreter loop: steps until the machine is Halted or Faulted, at most `fuel` of them (R171, 40_cycle.md R80, R93). -/
def runLoop : Nat → State → State
  | 0, s => s
  | fuel + 1, s =>
    match step s with
    | .next t => runLoop fuel t
    | .fault _ => s
    | .refused _ => s

/-- The order of a run: reset, load, loop (R171). -/
def launch (prog : List Nat) (fuel : Nat) (s : State) : Except LoadError State :=
  (loadProgram prog (resetPort s)).map (runLoop fuel)

/-- F of Faulted(F, info): which fault it is, without the info it records. There are four, one for each fault of R150 and of R151's codes
(log entry 13). -/
inductive FaultKind
  | outOfBoundsMemory
  | outOfBoundsRegister
  | unknownInstruction
  | unsupportedOperation
deriving DecidableEq, Repr

/-- The F of a fault record: the record without its info (R150). -/
def FaultRecord.kind : FaultRecord → FaultKind
  | .outOfBoundsMemory _ => .outOfBoundsMemory
  | .outOfBoundsRegister _ => .outOfBoundsRegister
  | .unknownInstruction _ _ => .unknownInstruction
  | .unsupportedOperation _ => .unsupportedOperation

/-- Parameter EXIT_CODE: any map from F to exit codes that are never 0; the info has no part in it (R174, decision D12; log entry 13). -/
structure ExitCodes where
  code : FaultKind → Nat
  nonzero : ∀ k, code k ≠ 0

/-- The default value of EXIT_CODE: always 1 (00_scope.md R7). -/
def defaultExitCodes : ExitCodes := ⟨fun _ => 1, fun _ => Nat.one_ne_zero⟩

/-- The exit code the host sees: 0 after HLT, EXIT_CODE(F) in Faulted(F, info), none while the machine runs (R174). -/
def exitStatus (codes : ExitCodes) (s : State) : Option Nat :=
  match s.run with
  | .running => none
  | .halted => some 0
  | .faulted f => some (codes.code f.kind)

/-- The fault record that the host is given when a run ends Faulted (R170, R174). -/
def faultReport (s : State) : Option FaultRecord :=
  match s.run with
  | .running => none
  | .halted => none
  | .faulted f => some f

/-- The numeric code of a fault, of F alone (R151, decision D12). -/
def FaultRecord.number (f : FaultRecord) : Nat :=
  match f.kind with
  | .outOfBoundsMemory => 1
  | .outOfBoundsRegister => 2
  | .unknownInstruction => 3
  | .unsupportedOperation => 4

/-- The numeric code of a report (R151, decision D12). -/
def Report.number : Report → Nat
  | .emptyStack _ _ => 16

/-- The console lines of the output stream: one decimal value per line (R173). -/
def consoleLines (s : State) : List String := s.out.map fun v => Nat.repr v.toNat

/-- A trace record: the program counter, the three bytes at pc, pc+1 and pc+2, absent where there is no such cell, and R0 to R7 (R175). -/
structure TraceRecord where
  pc : Nat
  bytes : Vector (Option Byte) 3
  regs : Vector Byte 8
deriving DecidableEq, Repr

/-- The trace port; it reads the state and changes nothing (R175, decision D18; log entry 24). -/
def trace (s : State) : TraceRecord where
  pc := s.pc
  bytes := #v[(s.memRead s.pc).toOption, (s.memRead (s.pc + 1)).toOption, (s.memRead (s.pc + 2)).toOption]
  regs := s.regs

end Sys2Proof.Machine
end

