-- ==== Sys2Proof/Safety.lean ====
section
/-! DEFINITION. What claims are said with: the invariant of every step, runs without a fault, and what one state keeps of another. -/

namespace Sys2Proof.Machine

/-- The flags byte is its reset value or one of the three that a comparison writes, so bits 7:3 are 0 (10_state.md R27). -/
abbrev LegalFlags (v : Byte) : Prop := v = 0x00 ∨ v = 0x01 ∨ v = 0x02 ∨ v = 0x04

/-- The fault record of a Faulted state agrees with the state it was raised in (60_exceptions.md R150): the one memory address
that is ever reported is 256, the register index is a byte above 7, an unknown opcode is the byte at the PC and in no row of the
table, and the ALU is never asked for an operation outside its set. -/
def faultJustified (s : State) : Bool :=
  match s.run with
  | .running => true
  | .halted => true
  | .faulted (.outOfBoundsMemory a) => a == 256
  | .faulted (.outOfBoundsRegister i) => decide (8 ≤ i) && decide (i ≤ 255)
  | .faulted (.unknownInstruction op a) => a == s.pc && s.mem.read s.pc == op && (lookup defaultOpcodes op).isNone
  | .faulted (.unsupportedOperation _) => false

/-- The invariant that every step keeps: memory is in its canonical form, the PC is at most 256, FL is legal and a fault record is justified. -/
abbrev Inv (s : State) : Prop :=
  s.mem.wf ∧ s.pc ≤ 256 ∧ LegalFlags s.fl ∧ faultJustified s = true

/-- A state that no fatal fault has stopped. -/
def Safe (s : State) : Prop := ∀ f, s.run ≠ .faulted f

/-- Every register of `t` outside the list `ds` holds what it holds in `s`. -/
def SameRegsExcept (ds : List RegIndex) (s t : State) : Prop :=
  ∀ k, k ∉ ds → t.reg k = s.reg k

/-- Every cell of `t` outside the list `as` reads as it does in `s`. -/
def SameCellsExcept (as : List Nat) (s t : State) : Prop :=
  ∀ a, a ∉ as → t.mem.read a = s.mem.read a

/-- The run state and the two streams of `t` are those of `s`. -/
def SameRunAndStreams (s t : State) : Prop :=
  t.run = s.run ∧ t.out = s.out ∧ t.diag = s.diag

/-- `t` is `s` after an instruction of `len` bytes that gave register `i` the value `v` and changed nothing else but the PC. -/
def WritesRegister (s t : State) (i : RegIndex) (v : Byte) (len : Nat) : Prop :=
  t.reg i = v ∧ SameRegsExcept [i] s t ∧ t.pc = s.pc + len ∧ t.fl = s.fl ∧
    SameCellsExcept [] s t ∧ SameRunAndStreams s t

/-- `t` is `s` with the PC at `a` and nothing else changed. -/
def MovesOnlyPc (s t : State) (a : Nat) : Prop :=
  t.pc = a ∧ SameRegsExcept [] s t ∧ t.fl = s.fl ∧ SameCellsExcept [] s t ∧ SameRunAndStreams s t

end Sys2Proof.Machine
end

