-- ==== Sys2Proof/Certificates/Slice0/Obligations.lean ====
section
/-! DEFINITION. The statements for the provers. "Dn" is a decision of 92_eei_decisions.md; a statement that rests on one says so. -/

open Sys2Proof Sys2Proof.Machine

/-! ### Encoding -/

/-- Words written out from the table of 30_encoding.md R63 and the formats of R61 decode to the instructions they stand for.
The opcode bytes are the default of parameter OPCODE (decision D2, log entry 3); that NOT and RET have one operand byte is decision D3 and
conflict C5 (log entry 16). -/
def Obligations.EncodedWordsDecode : Prop :=
  decode [0x01#8] = .ok (.hlt, []) ∧
  decode [0x82#8, 0x00#8, 0x08#8] = .ok (.ldi 0x00#8 0x08#8, []) ∧
  decode [0x47#8, 0x07#8, 0xEE#8] = .ok (.prn 0x07#8, [0xEE#8]) ∧
  decode [0xA2#8, 0x00#8, 0x01#8] = .ok (.mul 0x00#8 0x01#8, []) ∧
  decode [0xA0#8, 0x02#8, 0x03#8] = .ok (.add 0x02#8 0x03#8, []) ∧
  decode [0x69#8, 0x02#8] = .ok (.not 0x02#8, []) ∧
  decode [0xA7#8, 0x00#8, 0x01#8] = .ok (.cmp 0x00#8 0x01#8, []) ∧
  decode [0x45#8, 0x00#8] = .ok (.push 0x00#8, []) ∧
  decode [0x11#8, 0x02#8] = .ok (.ret 0x02#8, []) ∧
  decode [0x56#8, 0x03#8] = .ok (.jne 0x03#8, [])

/-- Decoding an encoded well-formed instruction gives it back, with the bytes after it, under every opcode map (R61, R62, D2). -/
def Obligations.DecodeOfEncodeIsIdentity : Prop :=
  ∀ (opc : Config.OpcodeMap) (i : Instr) (rest : List Byte), i.WellFormed →
    decodeWith opc (encodeWith opc i ++ rest) = .ok (i, rest)

/-- Whatever bytes decode, they are the encoding of a well-formed instruction and the bytes after it (R61, R62, R67). -/
def Obligations.DecodedBytesAreAnEncoding : Prop :=
  ∀ (opc : Config.OpcodeMap) (bytes : List Byte) (i : Instr) (rest : List Byte),
    decodeWith opc bytes = .ok (i, rest) →
      i.WellFormed ∧ bytes = encodeWith opc i ++ rest

/-- Under the default opcode map (D2) 238 opcode bytes are illegal, 0x00 and those that R66 lists among them (R66). -/
def Obligations.IllegalOpcodeBytes : Prop :=
  ((List.range 256).filter fun n => (lookup defaultOpcodes (BitVec.ofNat 8 n)).isNone).length = 238 ∧
  ∀ op ∈ [0x00#8, 0xA1#8, 0xA3#8, 0xA4#8, 0x65#8, 0x66#8, 0xAD#8, 0x83#8, 0x84#8, 0x48#8,
      0x52#8, 0x13#8, 0x57#8, 0x58#8, 0x59#8, 0x5A#8],
    ∀ rest, decode (op :: rest) = .error (.unknownOpcode op)

/-- The opcode byte is matched whole: decoding rejects it exactly where no instruction has it, and otherwise reads an instruction
that has it (R65). -/
def Obligations.OpcodeByteIsMatchedWhole : Prop :=
  ∀ (opc : Config.OpcodeMap) (op : Byte) (rest : List Byte),
    (decodeWith opc (op :: rest) = .error (.unknownOpcode op) ↔ ∀ m, opc.byte m ≠ op) ∧
    (∀ i tail, decodeWith opc (op :: rest) = .ok (i, tail) → opc.byte i.mnemonic = op)

/-- The length of an instruction, 1 to 3 bytes, is fixed by its opcode byte: two byte strings with the same first byte that both
decode give up the same number of bytes (R60, R68). -/
def Obligations.LengthIsFixedByOpcodeByte : Prop :=
  ∀ (opc : Config.OpcodeMap) (op : Byte) (bs cs : List Byte) (i j : Instr) (bs' cs' : List Byte),
    decodeWith opc (op :: bs) = .ok (i, bs') → decodeWith opc (op :: cs) = .ok (j, cs') →
      i.mnemonic = j.mnemonic ∧
      (op :: bs).length = i.mnemonic.length + bs'.length ∧
      (op :: cs).length = i.mnemonic.length + cs'.length ∧
      1 ≤ i.mnemonic.length ∧ i.mnemonic.length ≤ 3

/-- A word of the opcode table, placed by withFetchWord where the next fetch reads, is what the next step runs. It is the model's
reading of the table's numbering (log entries 4 and 18) that is stated. -/
def Obligations.PlacedTableWordIsWhatStepRuns : Prop :=
  ∀ (s : State) (nbits w : Nat) (i : Instr), s.mem.wf →
    decodeTableWord nbits w = some i → 8 * i.mnemonic.length ≤ nbits →
      step (s.withFetchWord nbits w) = exec i (s.withFetchWord nbits w)

/-! ### The step, faults and the run state -/

/-- A step of a Running machine runs the instruction that its window of bytes at pc, pc+1 and pc+2 decodes to (40_cycle.md R90). -/
def Obligations.StepRunsTheDecodedInstruction : Prop :=
  ∀ (s : State) (i : Instr) (rest : List Byte), s.run = .running →
    decode (fetchWindow s) = .ok (i, rest) → step s = exec i s

/-- A step of a Running machine whose memory holds the encoding of a well-formed instruction from the PC on, within the 256 cells,
runs that instruction (R45, R81, R85, R90). -/
def Obligations.StepRunsTheInstructionInMemory : Prop :=
  ∀ (s : State) (i : Instr), s.run = .running → i.WellFormed →
    s.pc + i.mnemonic.length ≤ 256 →
    (∀ k b, (encode i)[k]? = some b → s.mem.read (s.pc + k) = b) →
      step s = exec i s

/-- A step raises the first check to fail, in the order fetch bound, opcode, operand bounds, register indices, CALL's return address
(60_exceptions.md R155), and raising changes the run state alone. The precision and the order are decisions D9 and D10 (log
entry 11). That a fetch or operand read at 256 or above faults and does not wrap is decision D4 (log entry 6), that a register byte above 7
faults and is not masked is decision D25 (log entry 23), and the CALL check is decision D8 (log entry 10). The opcode bytes are decision D2 and
the operand counts of NOT and RET are decision D3 and conflict C5 (log entries 3 and 16). -/
def Obligations.FaultPriority : Prop :=
  ∀ s : State, s.run = .running →
    (255 < s.pc → step s = .next { s with run := .faulted (.outOfBoundsMemory s.pc) }) ∧
    (s.pc ≤ 255 → (∀ m, defaultOpcode m ≠ s.mem.read s.pc) →
      step s = .next { s with run := .faulted (.unknownInstruction (s.mem.read s.pc) s.pc) }) ∧
    (∀ m, s.pc ≤ 255 → s.mem.read s.pc = defaultOpcode m → 255 < s.pc + m.format.operandCount →
      step s = .next { s with run := .faulted (.outOfBoundsMemory 256) }) ∧
    (∀ (i : Instr) (good bad : List Byte) (b : Byte), s.pc + i.mnemonic.length ≤ 256 →
      (∀ k c, (encode i)[k]? = some c → s.mem.read (s.pc + k) = c) →
      i.regOperands = good ++ b :: bad → (∀ c ∈ good, c.toNat ≤ 7) → 7 < b.toNat →
      step s = .next { s with run := .faulted (.outOfBoundsRegister b.toNat) }) ∧
    (∀ r : RegIndex, s.pc = 254 → s.mem.read 254 = 0x50#8 → s.mem.read 255 = regByte r →
      step s = .next { s with run := .faulted (.outOfBoundsMemory 256) })

/-- The meaning of an instruction with a register operand byte above 7 raises OutOfBounds(Register) for the first such byte and does
nothing else (40_cycle.md R86; decisions D10 and D25, log entries 20 and 23). -/
def Obligations.RegisterOperandAboveSevenFaults : Prop :=
  ∀ (i : Instr) (s : State) (good bad : List Byte) (b : Byte),
    i.regOperands = good ++ b :: bad → (∀ c ∈ good, c.toNat ≤ 7) → 7 < b.toNat →
      exec i s = .next { s with run := .faulted (.outOfBoundsRegister b.toNat) }

/-- Faults are precise: a step that ends Faulted changed nothing but the run state (40_cycle.md R89, 60_exceptions.md R152, R153; decision
D9, log entry 11), under every opcode map. -/
def Obligations.FaultsArePrecise : Prop :=
  ∀ (opc : Config.OpcodeMap) (s t : State) (f : FaultRecord),
    stepWith opc s = .next t → t.run = .faulted f → t = { s with run := .faulted f }

/-- A step is enabled exactly in the Running state, and no step is ever refused (40_cycle.md R80, R92; decision D21, log entry 2). -/
def Obligations.StepIsEnabledExactlyWhenRunning : Prop :=
  ∀ (opc : Config.OpcodeMap) (s : State),
    ((∃ t, stepWith opc s = .next t) ↔ s.run = .running) ∧
    (∀ r, stepWith opc s ≠ .refused r)

/-- In a terminal state the model's step answers the fault that names it: the model's form of "no step is enabled" (R80, decision D21,
log entry 2). -/
def Obligations.TerminalStatesAnswerTheirFault : Prop :=
  ∀ s : State, (s.run = .halted → step s = .fault .halted) ∧
    (∀ f, s.run = .faulted f → step s = .fault (.faulted f))

/-- The run state (10_state.md R30): Running at first; Halted reached only by executing HLT; Faulted reached only when a fault stops the
loop; read by no instruction; written by HLT and faults alone; no step in a terminal state. -/
def Obligations.RunStateIsWrittenByHltAndFaultsOnly : Prop :=
  State.reset.run = .running ∧
  (∀ s t, step s = .next t → t.run = .halted → ∃ rest, decode (fetchWindow s) = .ok (.hlt, rest)) ∧
  (∀ i s t, exec i s = .next t → i ≠ .hlt → t.run = s.run ∨ ∃ f, t.run = .faulted f) ∧
  (∀ s, ∃ t, exec .hlt s = .next t ∧ t.run = .halted) ∧
  (∀ i s t r, exec i s = .next t → ∃ u, exec i { s with run := r } = .next u ∧
    { u with run := t.run } = t ∧ (u.run = t.run ∨ (t.run = s.run ∧ u.run = r))) ∧
  (∀ s t, s.run ≠ .running → step s ≠ .next t)

/-- Where each instruction that raises no fault leaves the PC: control transfers set it, every other instruction advances it by its
operand count + 1, and a fault leaves it (10_state.md R25, 40_cycle.md R88; HLT's advance is decision D11, NOT's length decision D3, log
entries 12 and 16). CALL and RET jump to their register as the push or pop leaves it: for operand R7 that is decision D6 (log entry 8), for RET
on an empty stack decision D7 (log entry 9). -/
def Obligations.PcAfterEachInstruction : Prop :=
  ∀ (i : Instr) (s t : State), s.run = .running → exec i s = .next t →
    (∀ f, t.run = .faulted f → t.pc = s.pc) ∧
    ((∀ f, t.run ≠ .faulted f) →
      match i.mnemonic with
      | .call | .ret | .jmp => ∃ r, i.regOperands = [regByte r] ∧ t.pc = (t.reg r).toNat
      | .jeq => ∃ r, i.regOperands = [regByte r] ∧ t.pc = if s.flagE then (s.reg r).toNat else s.pc + 2
      | .jne => ∃ r, i.regOperands = [regByte r] ∧ t.pc = if s.flagE then s.pc + 2 else (s.reg r).toNat
      | .hlt => t.pc = s.pc + 1
      | .prn | .push | .pop | .not => t.pc = s.pc + 2
      | .ldi | .add | .mul | .and | .or | .xor | .shl | .cmp => t.pc = s.pc + 3)

/-! ### State, reset and the primitives -/

/-- Every step keeps the invariant: canonical memory, a PC of at most 256, a legal flags byte, and a fault record that agrees with the
state. It is the model's invariant, read from R24, R27, R82, R85 and R150; the PC's bound is
decision D4 (log entry 6), that bits 7:3 of FL stay 0 is decision D5 (log entry 7). -/
def Obligations.EveryStepKeepsTheInvariant : Prop :=
  ∀ s t : State, Inv s → step s = .next t → Inv t

/-- The reset state meets the invariant (10_state.md R33). That its flags byte is legal is decision D5 (log entry 7): the source gives FL no reset
value. -/
def Obligations.ResetMeetsTheInvariant : Prop :=
  Inv State.reset

/-- Whatever program is loaded and however long it runs, the state meets the invariant (60_exceptions.md R171, R172). The legal flags byte is
decision D5 (log entry 7), the PC's bound decision D4 (log entry 6), and that a program with a value above 255 or a 257th value never starts is
decision D17 (log entry 19). -/
def Obligations.EveryRunKeepsTheInvariant : Prop :=
  ∀ (prog : List Nat) (fuel : Nat) (s t : State), launch prog fuel s = .ok t → Inv t

/-- The reset state, from whatever state reset is asserted in (10_state.md R33, 70_reset_and_hazards.md R180). FL's value is decision D5,
the empty streams and the port itself are decision D15 (log entries 7 and 25). -/
def Obligations.ResetState : Prop :=
  ∀ s : State,
    (∀ a, (resetPort s).mem.read a = 0x00#8) ∧
    (∀ k : RegIndex, k ≠ 7 → (resetPort s).reg k = 0x00#8) ∧ (resetPort s).reg 7 = 0xF4#8 ∧
    (resetPort s).fl = 0x00#8 ∧ (resetPort s).pc = 0 ∧ (resetPort s).run = .running ∧
    (resetPort s).out = [] ∧ (resetPort s).diag = [] ∧ resetPort s = State.reset

/-- The memory primitives (00_scope.md R11), in a state whose memory is in its canonical form: outside 0..255 both raise OutOfBounds(Memory),
and an instruction that ends in that write leaves memory, as everything but the run state, as it was. -/
def Obligations.MemoryPrimitives : Prop :=
  ∀ (s : State) (a : Nat) (v : Byte), s.mem.wf →
    (a ≤ 255 → s.memRead a = .ok (s.mem.read a)) ∧
    (a ≤ 255 → ∃ t, s.memWrite a v = .ok t ∧ t.mem.read a = v ∧ (∀ b, b ≠ a → t.mem.read b = s.mem.read b) ∧
      t.mem.wf ∧ t.regs = s.regs ∧ t.fl = s.fl ∧ t.pc = s.pc ∧ SameRunAndStreams s t) ∧
    (255 < a → s.memRead a = .error (.outOfBoundsMemory a) ∧ s.memWrite a v = .error (.outOfBoundsMemory a) ∧
      ∀ len, pcSequencer len s (s.memWrite a v >>= fun t => .ok (t, .next)) =
        .next { s with run := .faulted (.outOfBoundsMemory a) })

/-- The canonical form is canonical: two memories in it that read the same everywhere are the same list. -/
def Obligations.MemoriesThatReadTheSameAreEqual : Prop :=
  ∀ m n : Memory, m.wf → n.wf → (∀ a, m.read a = n.read a) → m = n

/-- Memory is sequential: after writes in program order a cell holds the last byte written to it, or what it held before (20_memory.md R49). -/
def Obligations.MemoryHoldsTheLastWrite : Prop :=
  ∀ (m : Memory) (ws : List (Nat × Byte)) (a : Nat), m.wf → (∀ w ∈ ws, w.1 ≤ 255) →
    Memory.read (ws.foldl (fun n w => Memory.write n w.1 w.2) m) a =
      match ws.reverse.find? fun w => w.1 == a with
      | some w => w.2
      | none => m.read a

/-- The register primitives (00_scope.md R10): a write is reduced mod 256 and touches its register alone, SP is R7, FL is written whole, and an
index byte is checked before anything is read or written. That the meaning of an ill-formed instruction raises OutOfBounds(Register) is the
model's deduction of log entry 20 with decision D25 (log entry 23); RegisterOperandAboveSevenFaults says which index. -/
def Obligations.RegisterPrimitives : Prop :=
  (∀ (s : State) (i : RegIndex) (v : Int),
    (((s.setReg i v).reg i).toNat : Int) = v % 256 ∧ SameRegsExcept [i] s (s.setReg i v) ∧
    (s.setReg i v).mem = s.mem ∧ (s.setReg i v).fl = s.fl ∧ (s.setReg i v).pc = s.pc ∧
    SameRunAndStreams s (s.setReg i v)) ∧
  (∀ s : State, s.sp = s.reg 7) ∧
  (∀ (s : State) (v : Byte), s.setFlags v = { s with fl := v }) ∧
  (∀ i : RegIndex, regIndex (regByte i) = .ok i) ∧
  (∀ b : Byte, 7 < b.toNat → regIndex b = .error (.outOfBoundsRegister b.toNat)) ∧
  (∀ (i : Instr) (s : State), ¬ i.WellFormed →
    ∃ n, exec i s = .next { s with run := .faulted (.outOfBoundsRegister n) })

/-- The primitives that end a step, write a stream, halt or set the PC (00_scope.md R12). -/
def Obligations.StepPrimitives : Prop :=
  ∀ s : State,
    (∀ f, s.raise f = { s with run := .faulted f }) ∧
    (∀ f len, pcSequencer len s (.error f) = .next { s with run := .faulted f }) ∧
    (∀ r, s.report r = { s with diag := s.diag ++ [r] }) ∧
    (∀ v, s.emit v = { s with out := s.out ++ [v] }) ∧
    (∀ target, s.jump target = { s with pc := target.toNat }) ∧
    (∀ n, s.advance n = { s with pc := s.pc + n }) ∧
    (∀ u target len, pcSequencer len s (.ok (u, .jump target)) = .next { u with pc := target.toNat }) ∧
    (∀ u len, pcSequencer len s (.ok (u, .next)) = .next { u with pc := u.pc + len }) ∧
    s.halt = { s with run := .halted }

/-! ### HLT, LDI, PRN -/

/-- HLT halts and does nothing else but advance the PC (41_data_output.md R100; the PC left is decision D11, log entry 12). -/
def Obligations.HltHalts : Prop :=
  ∀ s : State, exec .hlt s = .next { s with run := .halted, pc := s.pc + 1 }

/-- LDI writes its immediate to its register and nothing else (41_data_output.md R101). -/
def Obligations.LdiWritesTheImmediate : Prop :=
  ∀ (s : State) (r : RegIndex) (imm : Byte),
    ∃ t, exec (.ldi (regByte r) imm) s = .next t ∧ WritesRegister s t r imm 3

/-- PRN appends its register's value to the output stream and does nothing else (41_data_output.md R102). -/
def Obligations.PrnEmitsTheRegister : Prop :=
  ∀ (s : State) (r : RegIndex),
    exec (.prn (regByte r)) s = .next { s with out := s.out ++ [s.reg r], pc := s.pc + 2 }

/-! ### ALU -/

/-- ADD and MUL write the sum and the product mod 256 to register a and write no flag (42_alu.md R112, R113). -/
def Obligations.AddAndMulWrap : Prop :=
  ∀ (s : State) (a b : RegIndex),
    (∃ t v, exec (.add (regByte a) (regByte b)) s = .next t ∧ WritesRegister s t a v 3 ∧
      v.toNat = ((s.reg a).toNat + (s.reg b).toNat) % 256) ∧
    (∃ t v, exec (.mul (regByte a) (regByte b)) s = .next t ∧ WritesRegister s t a v 3 ∧
      v.toNat = ((s.reg a).toNat * (s.reg b).toNat) % 256)

/-- AND, OR, XOR and NOT work bit by bit on bytes, write register a and no flag (42_alu.md R114 to R117; NOT's length is decision D3,
log entry 16). -/
def Obligations.BitwiseOperations : Prop :=
  ∀ (s : State) (a b : RegIndex),
    (∃ t v, exec (.and (regByte a) (regByte b)) s = .next t ∧ WritesRegister s t a v 3 ∧
      ∀ n, n < 8 → v.getLsbD n = ((s.reg a).getLsbD n && (s.reg b).getLsbD n)) ∧
    (∃ t v, exec (.or (regByte a) (regByte b)) s = .next t ∧ WritesRegister s t a v 3 ∧
      ∀ n, n < 8 → v.getLsbD n = ((s.reg a).getLsbD n || (s.reg b).getLsbD n)) ∧
    (∃ t v, exec (.xor (regByte a) (regByte b)) s = .next t ∧ WritesRegister s t a v 3 ∧
      ∀ n, n < 8 → v.getLsbD n = ((s.reg a).getLsbD n != (s.reg b).getLsbD n)) ∧
    (∃ t v, exec (.not (regByte a)) s = .next t ∧ WritesRegister s t a v 2 ∧
      ∀ n, n < 8 → v.getLsbD n = !(s.reg a).getLsbD n)

/-- SHL shifts register a left by the whole value of register b, filling with zeros; a count of 8 or more gives 0 (42_alu.md R118; the
count is decision D19, log entry 15). -/
def Obligations.ShlShiftsByTheWholeRegister : Prop :=
  ∀ (s : State) (a b : RegIndex),
    ∃ t v, exec (.shl (regByte a) (regByte b)) s = .next t ∧ WritesRegister s t a v 3 ∧
      v.toNat = ((s.reg a).toNat * 2 ^ (s.reg b).toNat) % 256 ∧
      (∀ n, n < 8 → v.getLsbD n = (decide ((s.reg b).toNat ≤ n) && (s.reg a).getLsbD (n - (s.reg b).toNat))) ∧
      (8 ≤ (s.reg b).toNat → v = 0x00#8)

/-- CMP compares unsigned, sets exactly one of E, L and G, clears bits 7:3, and writes nothing else (42_alu.md R119, 10_state.md R27). -/
def Obligations.CmpSetsExactlyOneFlag : Prop :=
  ∀ (s : State) (a b : RegIndex),
    ∃ t, exec (.cmp (regByte a) (regByte b)) s = .next t ∧
      t.flagE = decide ((s.reg a).toNat = (s.reg b).toNat) ∧
      t.flagL = decide ((s.reg a).toNat < (s.reg b).toNat) ∧
      t.flagG = decide ((s.reg b).toNat < (s.reg a).toNat) ∧
      (t.fl = 0x01#8 ∨ t.fl = 0x02#8 ∨ t.fl = 0x04#8) ∧
      t.pc = s.pc + 3 ∧ SameRegsExcept [] s t ∧ SameCellsExcept [] s t ∧ SameRunAndStreams s t

/-- The ALU raises UnsupportedOperation exactly outside its eight operations, and no step ever ends in that fault (42_alu.md R110, R120;
decision D22, log entry 21). -/
def Obligations.UnsupportedOperationIsUnreachable : Prop :=
  (∀ op a b, alu op a b = .error (.unsupportedOperation op) ↔
    op ∉ [Mnemonic.add, .mul, .cmp, .and, .or, .xor, .not, .shl]) ∧
  (∀ s t op, step s = .next t → t.run ≠ .faulted (.unsupportedOperation op))

/-- The subtraction idiom: NOT b, ADD b c with c = 1, ADD a b leave a - b mod 256 in register a (42_alu.md R111, derived there; NOT's
length is decision D3). -/
def Obligations.SubtractionByNotAndAdd : Prop :=
  ∀ (s : State) (a b c : RegIndex), a ≠ b → a ≠ c → b ≠ c → s.reg c = 0x01#8 →
    ∃ s₁ s₂ s₃, exec (.not (regByte b)) s = .next s₁ ∧
      exec (.add (regByte b) (regByte c)) s₁ = .next s₂ ∧
      exec (.add (regByte a) (regByte b)) s₂ = .next s₃ ∧
      s₃.reg a = s.reg a - s.reg b ∧ s₃.fl = s.fl ∧ s₃.pc = s.pc + 8

/-! ### Stack -/

/-- PUSH decrements SP mod 256 and stores at the new SP the byte its register holds after the decrement; every other register, cell, the
flags and the streams stay (43_stack.md R131, R132; for PUSH R7 decision D6, log entry 8). -/
def Obligations.PushStoresBelowTheStack : Prop :=
  ∀ (s : State) (r : RegIndex), s.mem.wf →
    ∃ t, exec (.push (regByte r)) s = .next t ∧
      t.sp = s.sp - 1 ∧ SameRegsExcept [7] s t ∧
      t.mem.read (s.sp - 1).toNat = (if r = 7 then s.sp - 1 else s.reg r) ∧
      SameCellsExcept [(s.sp - 1).toNat] s t ∧
      t.pc = s.pc + 2 ∧ t.fl = s.fl ∧ SameRunAndStreams s t

/-- POP with SP off the sentinel loads the byte at SP into its register and then increments SP mod 256; memory, the flags and the streams stay
(43_stack.md R133, R132; for POP R7 decision D6, log entry 8). -/
def Obligations.PopLoadsTheTopOfTheStack : Prop :=
  ∀ (s : State) (r : RegIndex), s.sp ≠ 0xF4#8 →
    ∃ t, exec (.pop (regByte r)) s = .next t ∧
      (r ≠ 7 → t.reg r = s.mem.read s.sp.toNat ∧ t.sp = s.sp + 1) ∧
      (r = 7 → t.sp = s.mem.read s.sp.toNat + 1) ∧
      SameRegsExcept [r, 7] s t ∧ SameCellsExcept [] s t ∧
      t.pc = s.pc + 2 ∧ t.fl = s.fl ∧ SameRunAndStreams s t

/-- POP and RET with SP at the sentinel report EmptyStack and suppress the pop; POP goes on and RET jumps to the unchanged register
(43_stack.md R133, 44_control_transfer.md R143, 60_exceptions.md R156; RET's case and the report's content are decisions D7 and D13,
log entries 9 and 14). -/
def Obligations.EmptyStackIsReportedAndSkipped : Prop :=
  ∀ (s : State) (r : RegIndex), s.sp = 0xF4#8 →
    exec (.pop (regByte r)) s =
      .next { s with diag := s.diag ++ [.emptyStack s.pc r], pc := s.pc + 2 } ∧
    exec (.ret (regByte r)) s =
      .next { s with diag := s.diag ++ [.emptyStack s.pc r], pc := (s.reg r).toNat }

/-- PUSH and then POP restore the pushed value and SP, unless the POP names R7 (excluded by premise, as R134 says) or the push lands SP on the
sentinel, where the POP reports and pops nothing (43_stack.md R134, 70_reset_and_hazards.md R188, derived there). The byte of PUSH R7
is decision D6 (log entry 8), and what the report holds, the POP's address and register, is decision D13 (log entry 14). -/
def Obligations.PushThenPopRestores : Prop :=
  ∀ (s : State) (r q : RegIndex), s.mem.wf →
    ∃ t u, exec (.push (regByte r)) s = .next t ∧ exec (.pop (regByte q)) t = .next u ∧
      (s.sp ≠ 0xF5#8 → q ≠ 7 →
        u.reg q = (if r = 7 then s.sp - 1 else s.reg r) ∧ u.sp = s.sp ∧
        SameRegsExcept [q] s u ∧ SameRunAndStreams s u) ∧
      (s.sp = 0xF5#8 → u = { t with diag := t.diag ++ [.emptyStack (s.pc + 2) q], pc := s.pc + 4 })

/-- A store is seen by the next fetch: a PUSH that stores at the address right after itself is followed by a step that runs the byte just
pushed; where that byte is the HLT opcode, the machine halts there, and where it is 0x00, it faults (20_memory.md R51,
70_reset_and_hazards.md R185; the opcode bytes are decision D2, the PC after HLT is decision D11, log entries 3 and 12). -/
def Obligations.PushedByteIsFetchedNext : Prop :=
  ∀ (s : State) (r : RegIndex), s.mem.wf → s.run = .running → s.pc + 2 ≤ 255 →
    (s.sp - 1).toNat = s.pc + 2 → r ≠ 7 →
    ∃ t, exec (.push (regByte r)) s = .next t ∧ t.memRead t.pc = .ok (s.reg r) ∧
      (s.reg r = 0x01#8 → step t = .next { t with run := .halted, pc := t.pc + 1 }) ∧
      (s.reg r = 0x00#8 → step t = .next { t with run := .faulted (.unknownInstruction 0x00#8 t.pc) })

/-! ### Control transfer -/

/-- CALL pushes pc + 2 and jumps to its register as the push left it; where pc + 2 is no address it raises OutOfBounds(Memory) and writes
nothing (44_control_transfer.md R141, R142; decisions D6 and D8, log entries 8 and 10). -/
def Obligations.CallPushesTheReturnAddress : Prop :=
  ∀ (s : State) (r : RegIndex), s.mem.wf →
    (s.pc + 2 ≤ 255 → ∃ t, exec (.call (regByte r)) s = .next t ∧
      t.sp = s.sp - 1 ∧ SameRegsExcept [7] s t ∧
      (t.mem.read (s.sp - 1).toNat).toNat = s.pc + 2 ∧
      SameCellsExcept [(s.sp - 1).toNat] s t ∧
      t.pc = (if r = 7 then s.sp - 1 else s.reg r).toNat ∧ t.fl = s.fl ∧ SameRunAndStreams s t) ∧
    (255 < s.pc + 2 →
      exec (.call (regByte r)) s = .next { s with run := .faulted (.outOfBoundsMemory (s.pc + 2)) })

/-- RET with SP off the sentinel pops into its register and jumps to what that register then holds (44_control_transfer.md R143; for RET R7
decision D6, log entry 8). -/
def Obligations.RetPopsAndJumps : Prop :=
  ∀ (s : State) (r : RegIndex), s.sp ≠ 0xF4#8 →
    ∃ t, exec (.ret (regByte r)) s = .next t ∧
      (r ≠ 7 → t.reg r = s.mem.read s.sp.toNat ∧ t.sp = s.sp + 1) ∧
      (r = 7 → t.sp = s.mem.read s.sp.toNat + 1) ∧
      t.pc = (t.reg r).toNat ∧
      SameRegsExcept [r, 7] s t ∧ SameCellsExcept [] s t ∧ t.fl = s.fl ∧ SameRunAndStreams s t

/-- JMP jumps, JEQ jumps exactly with E set, JNE exactly with E clear; the two that do not jump advance by 2; nothing but the PC changes
(44_control_transfer.md R144, R145, R146). -/
def Obligations.JumpsMoveOnlyThePc : Prop :=
  ∀ (s : State) (r : RegIndex),
    (∃ t, exec (.jmp (regByte r)) s = .next t ∧ MovesOnlyPc s t (s.reg r).toNat) ∧
    (∃ t, exec (.jeq (regByte r)) s = .next t ∧
      MovesOnlyPc s t (if s.fl.getLsbD 0 = true then (s.reg r).toNat else s.pc + 2)) ∧
    (∃ t, exec (.jne (regByte r)) s = .next t ∧
      MovesOnlyPc s t (if s.fl.getLsbD 0 = false then (s.reg r).toNat else s.pc + 2))

/-- After a CMP, JEQ is taken exactly if the compared values were equal and JNE exactly if they were not (R119, R145, R146). -/
def Obligations.BranchFollowsTheComparison : Prop :=
  ∀ (s : State) (a b r : RegIndex),
    ∃ t u v, exec (.cmp (regByte a) (regByte b)) s = .next t ∧
      exec (.jeq (regByte r)) t = .next u ∧ exec (.jne (regByte r)) t = .next v ∧
      u.pc = (if s.reg a = s.reg b then (s.reg r).toNat else s.pc + 5) ∧
      v.pc = (if s.reg a = s.reg b then s.pc + 5 else (s.reg r).toNat)

/-- A RET resumes after its CALL: from any state, however reached, in which SP and the cell at SP are as the CALL left them, a RET into a
register other than R7 goes to the CALL's address + 2 and restores SP, if SP before the CALL was not 0xF5 (44_control_transfer.md
R147, derived there; decision D8). -/
def Obligations.RetResumesAfterItsCall : Prop :=
  ∀ (s t u : State) (r q : RegIndex), s.mem.wf → s.pc + 2 ≤ 255 → s.sp ≠ 0xF5#8 → q ≠ 7 →
    exec (.call (regByte r)) s = .next t →
    u.sp = t.sp → u.mem.read t.sp.toNat = t.mem.read t.sp.toNat →
    ∃ v, exec (.ret (regByte q)) u = .next v ∧ v.pc = s.pc + 2 ∧ v.sp = s.sp ∧ (v.reg q).toNat = s.pc + 2

/-! ### Whole-machine rules -/

/-- Only CMP writes FL (10_state.md R28). -/
def Obligations.OnlyCmpWritesFlags : Prop :=
  ∀ (i : Instr) (s t : State), exec i s = .next t → t.fl = s.fl ∨ ∃ a b, i = .cmp a b

/-- No step reads L, G or bits 7:3 of FL: two states that differ in FL but not in E step alike, and the flags they end with are both the
same new ones or both untouched (10_state.md R28). -/
def Obligations.OnlyEqualFlagIsRead : Prop :=
  ∀ (s t : State) (f : Byte), f.getLsbD 0 = s.fl.getLsbD 0 → step s = .next t →
    step { s with fl := f } = .next t ∨
    (t.fl = s.fl ∧ step { s with fl := f } = .next { t with fl := f })

/-- Which registers each instruction may write: none, R7, its first operand, or its operand and R7 (10_state.md R23, derived there). -/
def Obligations.RegistersEachInstructionWrites : Prop :=
  ∀ (i : Instr) (s t : State), exec i s = .next t →
    match i.mnemonic with
    | .hlt | .prn | .cmp | .jmp | .jeq | .jne => t.regs = s.regs
    | .push | .call => SameRegsExcept [7] s t
    | .pop | .ret => ∀ k : RegIndex, k ≠ 7 → i.regOperands ≠ [regByte k] → t.reg k = s.reg k
    | .ldi | .not | .add | .mul | .and | .or | .xor | .shl =>
      ∀ k : RegIndex, i.regOperands.head? ≠ some (regByte k) → t.reg k = s.reg k

/-- Only PUSH and CALL write memory, and only the cell below SP (20_memory.md R41, derived there; 43_stack.md R131). -/
def Obligations.OnlyPushAndCallWriteMemory : Prop :=
  ∀ (i : Instr) (s t : State), exec i s = .next t →
    t.mem = s.mem ∨
    ((∃ r, i = .push r ∨ i = .call r) ∧ SameCellsExcept [(s.sp - 1).toNat] s t)

/-- The streams only grow, PRN alone emits and POP and RET alone report, at most one entry a step, and no step reads them
(41_data_output.md R102, 60_exceptions.md R156). -/
def Obligations.StreamsGrowAndAreNeverRead : Prop :=
  ∀ (i : Instr) (s t : State), exec i s = .next t →
    ∃ (o : List Byte) (d : List Report), t.out = s.out ++ o ∧ t.diag = s.diag ++ d ∧
      o.length ≤ 1 ∧ d.length ≤ 1 ∧ (o ≠ [] → i.mnemonic = .prn) ∧ (d ≠ [] → i.mnemonic = .pop ∨ i.mnemonic = .ret) ∧
      ∀ (o' : List Byte) (d' : List Report),
        exec i { s with out := o', diag := d' } = .next { t with out := o' ++ o, diag := d' ++ d }

/-- A step reads at most four cells: the three at pc, pc+1 and pc+2, and the one at SP. Two machines that agree on those and on everything
outside memory step to states that agree on everything outside memory, and a cell on which the two agreed they still agree on
(20_memory.md R41, 10_state.md R32). -/
def Obligations.StepReadsOnlyFetchedCellsAndStackTop : Prop :=
  ∀ (s t : State) (m : Memory), s.mem.wf → m.wf →
    (∀ a, a = s.pc ∨ a = s.pc + 1 ∨ a = s.pc + 2 ∨ a = s.sp.toNat → m.read a = s.mem.read a) →
    step s = .next t →
    ∃ n : Memory, step { s with mem := m } = .next { t with mem := n } ∧
      ∀ a, m.read a = s.mem.read a → n.read a = t.mem.read a

/-! ### The ports -/

/-- The load port writes the program from address 0, keeps every other cell and everything outside memory, and refuses a value above 255 or a
257th value (60_exceptions.md R172; decision D17, log entry 19). -/
def Obligations.LoadWritesTheProgramFromZero : Prop :=
  ∀ (prog : List Nat) (s : State), s.mem.wf →
    (prog.length ≤ 256 → (∀ v ∈ prog, v ≤ 255) → ∃ t, loadProgram prog s = .ok t ∧
      (∀ k v, prog[k]? = some v → (t.mem.read k).toNat = v) ∧
      (∀ a, prog.length ≤ a → t.mem.read a = s.mem.read a) ∧
      t.mem.wf ∧ { t with mem := s.mem } = s) ∧
    (256 < prog.length ∨ (∃ v ∈ prog, 255 < v) → ∃ e, loadProgram prog s = .error e)

/-- The exit status is 0 exactly after a normal HLT, some non-zero code exactly in a Faulted state, and absent while Running, for every
EXIT_CODE map; in Faulted(F, info) it is EXIT_CODE(F), 1 by default, and the host is given the fault record (60_exceptions.md R174; the map and its
default are decision D12, and that F has four values is read from R150 and R151, both in log entry 13). -/
def Obligations.ExitStatusTellsHowTheRunEnded : Prop :=
  ∀ (codes : ExitCodes) (s : State),
    (exitStatus codes s = some 0 ↔ s.run = .halted) ∧
    ((∃ n, n ≠ 0 ∧ exitStatus codes s = some n) ↔ ∃ f, s.run = .faulted f) ∧
    (exitStatus codes s = none ↔ s.run = .running) ∧
    (∀ f, s.run = .faulted f →
      exitStatus codes s = some (codes.code f.kind) ∧ exitStatus defaultExitCodes s = some 1 ∧ faultReport s = some f) ∧
    ((∀ f, s.run ≠ .faulted f) → faultReport s = none)

/-- A trace record shows pc, R0 to R7 and the bytes at pc, pc+1 and pc+2, each absent exactly where there is no such cell (60_exceptions.md
R175). For pc+1 and pc+2 that is decision D18; that the byte at the PC itself is absent too where the PC is above 255 is the model's own design
choice, which neither R175 nor D18 gives (both in log entry 24). -/
def Obligations.TraceShowsPcBytesAndRegisters : Prop :=
  ∀ s : State, (trace s).pc = s.pc ∧ (trace s).regs = s.regs ∧
    ∀ k : Fin 3, (trace s).bytes.get k =
      if s.pc + k.val ≤ 255 then some (s.mem.read (s.pc + k.val)) else none

/-- The loop stops where the machine stops and stays there: more fuel changes nothing, and a run cut in two is the run (40_cycle.md R80, R93).
That a terminal state is never left is decision D21, in the model's form of log entry 2. -/
def Obligations.LoopStaysInTerminalStates : Prop :=
  ∀ (s : State) (m n : Nat),
    runLoop (m + n) s = runLoop n (runLoop m s) ∧
    ((runLoop m s).run ≠ .running → runLoop (m + n) s = runLoop m s)
end

