-- ==== Sys2Proof/Laws/Decode.lean ====
section
/-! SUPPORT. What the dispatch table and the operand readers of the decoder answer. -/

namespace Sys2Proof

theorem mem_all (m : Mnemonic) : m ∈ Mnemonic.all := by
  cases m <;> decide

/-- The dispatch table finds an instruction kind exactly if the byte is its opcode byte (30_encoding.md R65). -/
theorem lookup_eq_some {opc : Config.OpcodeMap} {op : Byte} {m : Mnemonic} :
    lookup opc op = some m ↔ opc.byte m = op := by
  constructor
  · intro h
    simpa using List.find?_some h
  · rintro rfl
    cases h : lookup opc (opc.byte m) with
    | none => exact absurd (List.find?_eq_none.1 h m (mem_all m)) (by simp)
    | some n =>
      have : opc.byte n = opc.byte m := by simpa using List.find?_some h
      rw [opc.injective _ _ this]

/-- The dispatch table finds nothing exactly if no instruction has the byte (30_encoding.md R66). -/
theorem lookup_eq_none {opc : Config.OpcodeMap} {op : Byte} : lookup opc op = none ↔ ∀ m, opc.byte m ≠ op := by
  constructor
  · intro h m hm
    rw [lookup_eq_some.2 hm] at h
    cases h
  · intro h
    cases hl : lookup opc op with
    | none => rfl
    | some m => exact absurd (lookup_eq_some.1 hl) (h m)

theorem lookup_byte (opc : Config.OpcodeMap) (m : Mnemonic) : lookup opc (opc.byte m) = some m :=
  lookup_eq_some.2 rfl

/-- An instruction is well formed exactly if it has no register operand above 7. -/
theorem badRegister_eq_none {i : Instr} : i.badRegister = none ↔ i.WellFormed := by
  simp [Instr.badRegister, List.find?_eq_none]

/-- The register check lets exactly the well-formed instructions through. -/
theorem checkRegisters_eq_ok {i j : Instr} {rest tail : List Byte} :
    checkRegisters i rest = .ok (j, tail) ↔ i.WellFormed ∧ i = j ∧ rest = tail := by
  rw [← badRegister_eq_none]
  unfold checkRegisters
  cases i.badRegister <;> simp

/-- An instruction of format R is read from one byte. -/
theorem takeOne_eq_ok {c : Byte → Instr} {bytes tail : List Byte} {i : Instr} :
    takeOne c bytes = .ok (i, tail) ↔ ∃ r, bytes = r :: tail ∧ i = c r ∧ i.WellFormed := by
  cases bytes with
  | nil => simp [takeOne]
  | cons r rest =>
    simp only [takeOne, checkRegisters_eq_ok, List.cons.injEq]
    constructor
    · rintro ⟨hw, rfl, rfl⟩; exact ⟨r, ⟨rfl, rfl⟩, rfl, hw⟩
    · rintro ⟨q, ⟨rfl, rfl⟩, rfl, hw⟩; exact ⟨hw, rfl, rfl⟩

/-- An instruction of format RR or RI is read from two bytes. -/
theorem takeTwo_eq_ok {c : Byte → Byte → Instr} {bytes tail : List Byte} {i : Instr} :
    takeTwo c bytes = .ok (i, tail) ↔ ∃ a b, bytes = a :: b :: tail ∧ i = c a b ∧ i.WellFormed := by
  match bytes with
  | [] => simp [takeTwo]
  | [_] => simp [takeTwo]
  | a :: b :: rest =>
    simp only [takeTwo, checkRegisters_eq_ok, List.cons.injEq]
    constructor
    · rintro ⟨hw, rfl, rfl⟩; exact ⟨a, b, ⟨rfl, rfl, rfl⟩, rfl, hw⟩
    · rintro ⟨p, q, ⟨rfl, rfl, rfl⟩, rfl, hw⟩; exact ⟨hw, rfl, rfl⟩

/-- The register check has no other error than a register operand above 7. -/
theorem checkRegisters_ne_unknown (i : Instr) (rest : List Byte) (op : Byte) :
    checkRegisters i rest ≠ .error (.unknownOpcode op) := by
  unfold checkRegisters
  cases i.badRegister <;> simp

theorem takeOne_ne_unknown (c : Byte → Instr) (bytes : List Byte) (op : Byte) :
    takeOne c bytes ≠ .error (.unknownOpcode op) := by
  cases bytes with
  | nil => simp [takeOne]
  | cons r rest => exact checkRegisters_ne_unknown _ _ _

theorem takeTwo_ne_unknown (c : Byte → Byte → Instr) (bytes : List Byte) (op : Byte) :
    takeTwo c bytes ≠ .error (.unknownOpcode op) := by
  match bytes with
  | [] => simp [takeTwo]
  | [_] => simp [takeTwo]
  | a :: b :: rest => exact checkRegisters_ne_unknown _ _ _

/-- Reading operands never reports an unknown opcode. -/
theorem takeOperands_ne_unknown (m : Mnemonic) (bytes : List Byte) (op : Byte) :
    takeOperands m bytes ≠ .error (.unknownOpcode op) := by
  cases m <;> first
    | exact takeOne_ne_unknown _ _ _
    | exact takeTwo_ne_unknown _ _ _
    | simp [takeOperands]

/-- What operand bytes are read as: an instruction of that kind, well formed, whose operand bytes they are. -/
theorem takeOperands_eq_ok {m : Mnemonic} {bytes tail : List Byte} {i : Instr} :
    takeOperands m bytes = .ok (i, tail) ↔ i.mnemonic = m ∧ i.WellFormed ∧ bytes = i.operandBytes ++ tail := by
  constructor
  · intro h
    cases m <;> simp only [takeOperands, takeOne_eq_ok, takeTwo_eq_ok, Except.ok.injEq, Prod.mk.injEq] at h
    all_goals first
      | (obtain ⟨rfl, rfl⟩ := h; exact ⟨rfl, fun _ hb => (nomatch hb), rfl⟩)
      | (obtain ⟨r, rfl, rfl, hw⟩ := h; exact ⟨rfl, hw, rfl⟩)
      | (obtain ⟨a, b, rfl, rfl, hw⟩ := h; exact ⟨rfl, hw, rfl⟩)
  · rintro ⟨rfl, hw, rfl⟩
    cases i <;> simp only [Instr.mnemonic, takeOperands, takeOne_eq_ok, takeTwo_eq_ok, Instr.operandBytes]
    all_goals first
      | rfl
      | exact ⟨_, rfl, rfl, hw⟩
      | exact ⟨_, _, rfl, rfl, hw⟩

/-- The operand bytes of an instruction are as many as its format says. -/
theorem operandBytes_length (i : Instr) : i.operandBytes.length = i.mnemonic.format.operandCount := by
  cases i <;> rfl

/-- An instruction's bytes are as many as its length says (30_encoding.md R60). -/
theorem encodeWith_length (opc : Config.OpcodeMap) (i : Instr) : (encodeWith opc i).length = i.mnemonic.length := by
  simp [encodeWith, operandBytes_length, Mnemonic.length]

/-- The first register operand above 7, found where the operands before it are at most 7. -/
theorem badRegister_of_split {i : Instr} {good bad : List Byte} {b : Byte} (h : i.regOperands = good ++ b :: bad)
    (hg : ∀ c ∈ good, c.toNat ≤ 7) (hb : 7 < b.toNat) : i.badRegister = some b := by
  have hn : good.find? (fun c => decide (7 < c.toNat)) = none := by
    simpa [List.find?_eq_none] using hg
  rw [Instr.badRegister, h, List.find?_append, hn]
  simp [hb]

/-- The bytes of an instruction with a register operand above 7 are refused for it. -/
theorem decodeWith_of_badRegister (opc : Config.OpcodeMap) {i : Instr} {b : Byte} (h : i.badRegister = some b)
    (rest : List Byte) : decodeWith opc (encodeWith opc i ++ rest) = .error (.badRegister b) := by
  have hc : ∀ tail, checkRegisters i tail = .error (.badRegister b) := fun tail => by simp [checkRegisters, h]
  simp only [encodeWith, List.cons_append, decodeWith, lookup_byte]
  cases i <;> exact hc rest

theorem mnemonic_length_bounds (m : Mnemonic) : 1 ≤ m.length ∧ m.length ≤ 3 := by
  cases m <;> decide

end Sys2Proof
end

