-- ==== Sys2Proof/Laws/Memory.lean ====
section
/-! SUPPORT. Memory reads after writes, and the canonical form under writes. -/

namespace Sys2Proof.Machine.Memory

theorem read_nil (a : Nat) : Memory.read [] a = Config.unlistedByte := rfl

theorem read_cons (c : Host.Cell) (m : Memory) (a : Nat) :
    Memory.read (c :: m) a = if c.1 = a then c.2 else Memory.read m a := rfl

/-- A cell that no pair of the list names reads as an unlisted cell. -/
theorem read_of_unlisted {m : Memory} {a : Nat} (h : ∀ c ∈ m, c.1 ≠ a) : m.read a = Config.unlistedByte := by
  induction m with
  | nil => rfl
  | cons c m ih =>
    rw [read_cons, if_neg (h c (by simp))]
    exact ih fun d hd => h d (by simp [hd])

theorem read_put_same {m : Memory} {a : Nat} (v : Byte) (h : ∀ c ∈ m, c.1 ≠ a) : (put a v m).read a = v := by
  unfold put
  split
  · rename_i hv; rw [hv]; exact read_of_unlisted h
  · simp [read_cons]

theorem read_put_other {m : Memory} {a b : Nat} (v : Byte) (h : b ≠ a) : (put a v m).read b = m.read b := by
  unfold put
  split
  · rfl
  · simp [read_cons, Ne.symm h]

/-- A write leaves every other cell alone. -/
theorem read_write_other (m : Memory) {a b : Nat} (v : Byte) (h : b ≠ a) : (m.write a v).read b = m.read b := by
  induction m with
  | nil => exact read_put_other v h
  | cons c m ih =>
    simp only [write]
    split
    · exact read_put_other v h
    · split
      · rename_i hc
        rw [read_put_other v h, read_cons, if_neg (fun e => h (by omega))]
      · simp [read_cons, ih]

/-- A read after a write to the same cell gives the byte written. -/
theorem read_write_same {m : Memory} (hm : m.wf) (a : Nat) (v : Byte) : (m.write a v).read a = v := by
  induction m with
  | nil => exact read_put_same v (by simp)
  | cons c m ih =>
    have hs := List.pairwise_cons.1 hm.1
    simp only [write]
    split
    · refine read_put_same v fun d hd => ?_
      rcases List.mem_cons.1 hd with rfl | hd
      · omega
      · have := hs.1 d hd; omega
    · split
      · refine read_put_same v fun d hd => ?_
        have := hs.1 d hd; omega
      · rw [read_cons, if_neg (by omega)]
        exact ih ⟨hs.2, fun d hd => hm.2 d (by simp [hd])⟩

/-- Where a write puts its pairs: each is an old pair or the new one. -/
theorem mem_write {m : Memory} {a : Nat} {v : Byte} {c : Host.Cell} (h : c ∈ m.write a v) :
    c ∈ m ∨ (c = (a, v) ∧ v ≠ Config.unlistedByte) := by
  have hput : ∀ {m : Memory}, c ∈ put a v m → c ∈ m ∨ (c = (a, v) ∧ v ≠ Config.unlistedByte) := by
    intro m hc
    unfold put at hc
    split at hc
    · exact .inl hc
    · rcases List.mem_cons.1 hc with rfl | hc
      · exact .inr ⟨rfl, ‹_›⟩
      · exact .inl hc
  induction m with
  | nil => exact hput h
  | cons d m ih =>
    simp only [write] at h
    split at h
    · exact hput h
    · split at h
      · exact (hput h).imp_left fun hc => by simp [hc]
      · rcases List.mem_cons.1 h with rfl | h
        · exact .inl (by simp)
        · exact (ih h).imp_left fun hc => by simp [hc]

theorem pairwise_put {m : Memory} {a : Nat} (v : Byte) (hm : m.Pairwise (fun c d => c.1 < d.1))
    (h : ∀ c ∈ m, a < c.1) : (put a v m).Pairwise (fun c d => c.1 < d.1) := by
  unfold put
  split
  · exact hm
  · exact List.pairwise_cons.2 ⟨h, hm⟩

theorem pairwise_write {m : Memory} (a : Nat) (v : Byte) (hm : m.Pairwise (fun c d => c.1 < d.1)) :
    (m.write a v).Pairwise (fun c d => c.1 < d.1) := by
  induction m with
  | nil => exact pairwise_put v hm (by simp)
  | cons c m ih =>
    have hs := List.pairwise_cons.1 hm
    simp only [write]
    split
    · refine pairwise_put v hm fun d hd => ?_
      rcases List.mem_cons.1 hd with rfl | hd
      · assumption
      · have := hs.1 d hd; omega
    · split
      · refine pairwise_put v hs.2 fun d hd => ?_
        have := hs.1 d hd; omega
      · refine List.pairwise_cons.2 ⟨fun d hd => ?_, ih hs.2⟩
        rcases mem_write hd with hd | ⟨rfl, -⟩
        · exact hs.1 d hd
        · simp only; omega

/-- A write to a cell that exists keeps the canonical form. -/
theorem wf_write {m : Memory} (hm : m.wf) {a : Nat} (ha : a < Config.memSize) (v : Byte) : (m.write a v).wf := by
  refine ⟨pairwise_write a v hm.1, fun c hc => ?_⟩
  rcases mem_write hc with hc | ⟨rfl, hv⟩
  · exact hm.2 c hc
  · exact ⟨ha, hv⟩

/-- The empty list is the canonical form of a memory of zeros. -/
theorem wf_nil : Memory.wf [] := ⟨List.Pairwise.nil, by simp⟩

end Sys2Proof.Machine.Memory
end

