-- ==== Sys2Proof/Laws/State.lean ====
section
/-! SUPPORT. One lemma per field per update of State, and how register reads see each update. -/

namespace Sys2Proof.Machine.State

@[simp] theorem setReg_mem (s : State) (i : RegIndex) (v : Int) : (s.setReg i v).mem = s.mem := rfl
@[simp] theorem setReg_fl (s : State) (i : RegIndex) (v : Int) : (s.setReg i v).fl = s.fl := rfl
@[simp] theorem setReg_pc (s : State) (i : RegIndex) (v : Int) : (s.setReg i v).pc = s.pc := rfl
@[simp] theorem setReg_run (s : State) (i : RegIndex) (v : Int) : (s.setReg i v).run = s.run := rfl
@[simp] theorem setReg_out (s : State) (i : RegIndex) (v : Int) : (s.setReg i v).out = s.out := rfl
@[simp] theorem setReg_diag (s : State) (i : RegIndex) (v : Int) : (s.setReg i v).diag = s.diag := rfl

@[simp] theorem setFlags_mem (s : State) (v : Byte) : (s.setFlags v).mem = s.mem := rfl
@[simp] theorem setFlags_regs (s : State) (v : Byte) : (s.setFlags v).regs = s.regs := rfl
@[simp] theorem setFlags_fl (s : State) (v : Byte) : (s.setFlags v).fl = v := rfl
@[simp] theorem setFlags_pc (s : State) (v : Byte) : (s.setFlags v).pc = s.pc := rfl
@[simp] theorem setFlags_run (s : State) (v : Byte) : (s.setFlags v).run = s.run := rfl
@[simp] theorem setFlags_out (s : State) (v : Byte) : (s.setFlags v).out = s.out := rfl
@[simp] theorem setFlags_diag (s : State) (v : Byte) : (s.setFlags v).diag = s.diag := rfl
@[simp] theorem reg_setFlags (s : State) (v : Byte) (k : RegIndex) : (s.setFlags v).reg k = s.reg k := rfl
@[simp] theorem sp_setFlags (s : State) (v : Byte) : (s.setFlags v).sp = s.sp := rfl

@[simp] theorem advance_mem (s : State) (n : Nat) : (s.advance n).mem = s.mem := rfl
@[simp] theorem advance_regs (s : State) (n : Nat) : (s.advance n).regs = s.regs := rfl
@[simp] theorem advance_fl (s : State) (n : Nat) : (s.advance n).fl = s.fl := rfl
@[simp] theorem advance_pc (s : State) (n : Nat) : (s.advance n).pc = s.pc + n := rfl
@[simp] theorem advance_run (s : State) (n : Nat) : (s.advance n).run = s.run := rfl
@[simp] theorem advance_out (s : State) (n : Nat) : (s.advance n).out = s.out := rfl
@[simp] theorem advance_diag (s : State) (n : Nat) : (s.advance n).diag = s.diag := rfl
@[simp] theorem reg_advance (s : State) (n : Nat) (k : RegIndex) : (s.advance n).reg k = s.reg k := rfl
@[simp] theorem sp_advance (s : State) (n : Nat) : (s.advance n).sp = s.sp := rfl

@[simp] theorem jump_mem (s : State) (v : Byte) : (s.jump v).mem = s.mem := rfl
@[simp] theorem jump_regs (s : State) (v : Byte) : (s.jump v).regs = s.regs := rfl
@[simp] theorem jump_fl (s : State) (v : Byte) : (s.jump v).fl = s.fl := rfl
@[simp] theorem jump_pc (s : State) (v : Byte) : (s.jump v).pc = v.toNat := rfl
@[simp] theorem jump_run (s : State) (v : Byte) : (s.jump v).run = s.run := rfl
@[simp] theorem jump_out (s : State) (v : Byte) : (s.jump v).out = s.out := rfl
@[simp] theorem jump_diag (s : State) (v : Byte) : (s.jump v).diag = s.diag := rfl
@[simp] theorem reg_jump (s : State) (v : Byte) (k : RegIndex) : (s.jump v).reg k = s.reg k := rfl
@[simp] theorem sp_jump (s : State) (v : Byte) : (s.jump v).sp = s.sp := rfl

@[simp] theorem emit_mem (s : State) (v : Byte) : (s.emit v).mem = s.mem := rfl
@[simp] theorem emit_regs (s : State) (v : Byte) : (s.emit v).regs = s.regs := rfl
@[simp] theorem emit_fl (s : State) (v : Byte) : (s.emit v).fl = s.fl := rfl
@[simp] theorem emit_pc (s : State) (v : Byte) : (s.emit v).pc = s.pc := rfl
@[simp] theorem emit_run (s : State) (v : Byte) : (s.emit v).run = s.run := rfl
@[simp] theorem emit_out (s : State) (v : Byte) : (s.emit v).out = s.out ++ [v] := rfl
@[simp] theorem emit_diag (s : State) (v : Byte) : (s.emit v).diag = s.diag := rfl
@[simp] theorem reg_emit (s : State) (v : Byte) (k : RegIndex) : (s.emit v).reg k = s.reg k := rfl
@[simp] theorem sp_emit (s : State) (v : Byte) : (s.emit v).sp = s.sp := rfl

@[simp] theorem report_mem (s : State) (r : Report) : (s.report r).mem = s.mem := rfl
@[simp] theorem report_regs (s : State) (r : Report) : (s.report r).regs = s.regs := rfl
@[simp] theorem report_fl (s : State) (r : Report) : (s.report r).fl = s.fl := rfl
@[simp] theorem report_pc (s : State) (r : Report) : (s.report r).pc = s.pc := rfl
@[simp] theorem report_run (s : State) (r : Report) : (s.report r).run = s.run := rfl
@[simp] theorem report_out (s : State) (r : Report) : (s.report r).out = s.out := rfl
@[simp] theorem report_diag (s : State) (r : Report) : (s.report r).diag = s.diag ++ [r] := rfl
@[simp] theorem reg_report (s : State) (r : Report) (k : RegIndex) : (s.report r).reg k = s.reg k := rfl
@[simp] theorem sp_report (s : State) (r : Report) : (s.report r).sp = s.sp := rfl

@[simp] theorem halt_mem (s : State) : s.halt.mem = s.mem := rfl
@[simp] theorem halt_regs (s : State) : s.halt.regs = s.regs := rfl
@[simp] theorem halt_fl (s : State) : s.halt.fl = s.fl := rfl
@[simp] theorem halt_pc (s : State) : s.halt.pc = s.pc := rfl
@[simp] theorem halt_run (s : State) : s.halt.run = .halted := rfl
@[simp] theorem halt_out (s : State) : s.halt.out = s.out := rfl
@[simp] theorem halt_diag (s : State) : s.halt.diag = s.diag := rfl
@[simp] theorem reg_halt (s : State) (k : RegIndex) : s.halt.reg k = s.reg k := rfl
@[simp] theorem sp_halt (s : State) : s.halt.sp = s.sp := rfl

@[simp] theorem raise_mem (s : State) (f : FaultRecord) : (s.raise f).mem = s.mem := rfl
@[simp] theorem raise_regs (s : State) (f : FaultRecord) : (s.raise f).regs = s.regs := rfl
@[simp] theorem raise_fl (s : State) (f : FaultRecord) : (s.raise f).fl = s.fl := rfl
@[simp] theorem raise_pc (s : State) (f : FaultRecord) : (s.raise f).pc = s.pc := rfl
@[simp] theorem raise_run (s : State) (f : FaultRecord) : (s.raise f).run = .faulted f := rfl
@[simp] theorem raise_out (s : State) (f : FaultRecord) : (s.raise f).out = s.out := rfl
@[simp] theorem raise_diag (s : State) (f : FaultRecord) : (s.raise f).diag = s.diag := rfl
@[simp] theorem reg_raise (s : State) (f : FaultRecord) (k : RegIndex) : (s.raise f).reg k = s.reg k := rfl
@[simp] theorem sp_raise (s : State) (f : FaultRecord) : (s.raise f).sp = s.sp := rfl

/-- A register reads as the last value written to it, and a write leaves every other register alone (00_scope.md R10). -/
theorem reg_setReg (s : State) (i k : RegIndex) (v : Int) :
    (s.setReg i v).reg k = if i = k then truncate v else s.reg k := by
  simp only [Fin.ext_iff]
  exact Vector.getElem_set i.isLt k.isLt

@[simp] theorem reg_setReg_same (s : State) (i : RegIndex) (v : Int) : (s.setReg i v).reg i = truncate v := by
  simp [reg_setReg]

theorem reg_setReg_other (s : State) {i k : RegIndex} (v : Int) (h : k ≠ i) : (s.setReg i v).reg k = s.reg k := by
  simp [reg_setReg, Ne.symm h]

/-- SP is R7 (10_state.md R22). -/
theorem sp_eq_reg (s : State) : s.sp = s.reg 7 := rfl

/-- A register reads the register file alone. -/
theorem reg_congr {s t : State} (h : t.regs = s.regs) (k : RegIndex) : t.reg k = s.reg k := by
  simp [reg, h]

@[simp] theorem reg_mk (m : Memory) (x : Vector Byte 8) (f : Byte) (p : Nat) (r : RunState) (o : List Byte)
    (d : List Report) (k : RegIndex) : (State.mk m x f p r o d).reg k = x.get k := rfl

end Sys2Proof.Machine.State

namespace Sys2Proof.Machine

/-- A byte's own value is not changed by truncation. -/
@[simp] theorem truncate_toNat (v : Byte) : truncate (v.toNat : Int) = v := by
  simp [truncate]

/-- Decrement is subtraction mod 256 (43_stack.md R132). -/
@[simp] theorem truncate_pred (v : Byte) : truncate ((v.toNat : Int) - 1) = v - 1 := by
  apply BitVec.eq_of_toNat_eq
  simp only [truncate, BitVec.toNat_ofInt, BitVec.toNat_sub]
  have h1 : (1 : Byte).toNat = 1 := rfl
  omega

/-- Increment is addition mod 256 (43_stack.md R132). -/
@[simp] theorem truncate_succ (v : Byte) : truncate ((v.toNat : Int) + 1) = v + 1 := by
  apply BitVec.eq_of_toNat_eq
  simp only [truncate, BitVec.toNat_ofInt, BitVec.toNat_add]
  have h1 : (1 : Byte).toNat = 1 := rfl
  omega

/-- A truncated sum is the sum mod 256 (42_alu.md R112). -/
theorem truncate_add (a b : Byte) : truncate ((a.toNat : Int) + b.toNat) = a + b := by
  apply BitVec.eq_of_toNat_eq
  simp only [truncate, BitVec.toNat_ofInt, BitVec.toNat_add]
  omega

/-- What a truncated number is as a natural number. -/
theorem truncate_natCast_toNat (n : Nat) : (truncate (n : Int)).toNat = n % 256 := by
  simp [truncate]

/-- What a truncated integer is as an integer (00_scope.md R9, R10). -/
theorem truncate_toNat_eq (v : Int) : ((truncate v).toNat : Int) = v % 256 := by
  simp [truncate, BitVec.toNat_ofInt]
  omega

end Sys2Proof.Machine
end

