-- ==== Sys2Proof/Laws/Ops.lean ====
section
/-! SUPPORT. One lemma per shared operation that says everything it can do. -/

namespace Sys2Proof.Machine

@[simp] theorem regByte_toNat (i : RegIndex) : (regByte i).toNat = i.val := by
  have := i.isLt
  simp only [regByte, BitVec.toNat_ofNat]
  omega

theorem regByte_injective {i j : RegIndex} (h : regByte i = regByte j) : i = j := by
  have := congrArg BitVec.toNat h
  simp only [regByte_toNat] at this
  exact Fin.ext this

@[simp] theorem regByte_inj {i j : RegIndex} : regByte i = regByte j ↔ i = j :=
  ⟨regByte_injective, fun h => h ▸ rfl⟩

/-- An operand byte names a register or is above 7. -/
theorem regByte_cases (b : Byte) : (∃ i : RegIndex, b = regByte i) ∨ 7 < b.toNat := by
  by_cases h : b.toNat < 8
  · refine .inl ⟨⟨b.toNat, h⟩, BitVec.eq_of_toNat_eq ?_⟩
    rw [regByte_toNat]
  · exact .inr (by omega)

@[simp] theorem regIndex_regByte (i : RegIndex) : regIndex (regByte i) = .ok i := by
  simp [regIndex]

theorem regIndex_of_big {b : Byte} (h : 7 < b.toNat) : regIndex b = .error (.outOfBoundsRegister b.toNat) := by
  simp [regIndex, show ¬ b.toNat < 8 by omega]

theorem memRead_of_lt (s : State) {a : Nat} (h : a < 256) : s.memRead a = .ok (s.mem.read a) := by
  simp [State.memRead, Config.memSize, h]

theorem memRead_of_ge (s : State) {a : Nat} (h : 256 ≤ a) : s.memRead a = .error (.outOfBoundsMemory a) := by
  simp [State.memRead, Config.memSize, Nat.not_lt.2 h]

theorem memWrite_of_lt (s : State) {a : Nat} (h : a < 256) (v : Byte) :
    s.memWrite a v = .ok { s with mem := s.mem.write a v } := by
  simp [State.memWrite, Config.memSize, h]

theorem memWrite_of_ge (s : State) {a : Nat} (h : 256 ≤ a) (v : Byte) :
    s.memWrite a v = .error (.outOfBoundsMemory a) := by
  simp [State.memWrite, Config.memSize, Nat.not_lt.2 h]

@[simp] theorem memRead_byte (s : State) (v : Byte) : s.memRead v.toNat = .ok (s.mem.read v.toNat) :=
  memRead_of_lt s v.isLt

@[simp] theorem memWrite_byte (s : State) (a v : Byte) :
    s.memWrite a.toNat v = .ok { s with mem := s.mem.write a.toNat v } :=
  memWrite_of_lt s a.isLt v

/-- A memory write that succeeds keeps the canonical form, and one that does not changes nothing. -/
theorem memWrite_keeps_wf {s t : State} {a : Nat} {v : Byte} (hs : s.mem.wf) (h : s.memWrite a v = .ok t) : t.mem.wf := by
  by_cases ha : a < 256
  · rw [memWrite_of_lt s ha] at h
    cases h
    exact Memory.wf_write hs ha v
  · rw [memWrite_of_ge s (Nat.not_lt.1 ha)] at h
    cases h

/-- The reset memory is in its canonical form. -/
theorem reset_mem_wf : State.reset.mem.wf := Memory.wf_nil

/-- The state after SP's decrement (43_stack.md R131). -/
def lowered (s : State) : State := s.setReg State.spIndex (s.sp.toNat - 1)

@[simp] theorem lowered_mem (s : State) : (lowered s).mem = s.mem := rfl
@[simp] theorem lowered_fl (s : State) : (lowered s).fl = s.fl := rfl
@[simp] theorem lowered_pc (s : State) : (lowered s).pc = s.pc := rfl
@[simp] theorem lowered_run (s : State) : (lowered s).run = s.run := rfl
@[simp] theorem lowered_out (s : State) : (lowered s).out = s.out := rfl
@[simp] theorem lowered_diag (s : State) : (lowered s).diag = s.diag := rfl

@[simp] theorem lowered_sp (s : State) : (lowered s).sp = s.sp - 1 := by
  simp [lowered, State.sp]

theorem lowered_reg (s : State) (k : RegIndex) : (lowered s).reg k = if k = 7 then s.sp - 1 else s.reg k := by
  by_cases h : k = 7
  · subst h; rw [if_pos rfl]; exact lowered_sp s
  · rw [if_neg h]; exact State.reg_setReg_other s _ h

/-- The state after byte `v` has been pushed (43_stack.md R131). -/
def pushed (s : State) (v : Byte) : State := { lowered s with mem := s.mem.write (s.sp - 1).toNat v }

@[simp] theorem pushed_mem (s : State) (v : Byte) : (pushed s v).mem = s.mem.write (s.sp - 1).toNat v := rfl
@[simp] theorem pushed_fl (s : State) (v : Byte) : (pushed s v).fl = s.fl := rfl
@[simp] theorem pushed_pc (s : State) (v : Byte) : (pushed s v).pc = s.pc := rfl
@[simp] theorem pushed_run (s : State) (v : Byte) : (pushed s v).run = s.run := rfl
@[simp] theorem pushed_out (s : State) (v : Byte) : (pushed s v).out = s.out := rfl
@[simp] theorem pushed_diag (s : State) (v : Byte) : (pushed s v).diag = s.diag := rfl

@[simp] theorem pushed_sp (s : State) (v : Byte) : (pushed s v).sp = s.sp - 1 := lowered_sp s

theorem pushed_reg (s : State) (v : Byte) (k : RegIndex) : (pushed s v).reg k = if k = 7 then s.sp - 1 else s.reg k :=
  lowered_reg s k

/-- The byte pushed is in the cell below the old top of the stack. -/
theorem pushed_read (s : State) (v : Byte) (h : s.mem.wf) : (pushed s v).mem.read (s.sp - 1).toNat = v :=
  Memory.read_write_same h _ _

/-- A push leaves every other cell alone. -/
theorem pushed_read_other (s : State) (v : Byte) {a : Nat} (h : a ≠ (s.sp - 1).toNat) :
    (pushed s v).mem.read a = s.mem.read a :=
  Memory.read_write_other _ _ h

/-- A push keeps the canonical form. -/
theorem pushed_wf (s : State) (v : Byte) (h : s.mem.wf) : (pushed s v).mem.wf :=
  Memory.wf_write h (s.sp - 1).isLt v

/-- A push always succeeds, and this is the state it leaves. -/
theorem push_eq (s : State) (v : State → Byte) : push s v = .ok (pushed s (v (lowered s))) := by
  have h : push s v = (lowered s).memWrite (lowered s).sp.toNat (v (lowered s)) := rfl
  rw [h, memWrite_byte, lowered_sp, lowered_mem]
  rfl

/-- The state after a pop into register `i` that is not suppressed (43_stack.md R133). -/
def popped (s : State) (i : RegIndex) : State :=
  (s.setReg i (s.mem.read s.sp.toNat).toNat).setReg State.spIndex
    ((s.setReg i (s.mem.read s.sp.toNat).toNat).sp.toNat + 1)

@[simp] theorem popped_mem (s : State) (i : RegIndex) : (popped s i).mem = s.mem := rfl
@[simp] theorem popped_fl (s : State) (i : RegIndex) : (popped s i).fl = s.fl := rfl
@[simp] theorem popped_pc (s : State) (i : RegIndex) : (popped s i).pc = s.pc := rfl
@[simp] theorem popped_run (s : State) (i : RegIndex) : (popped s i).run = s.run := rfl
@[simp] theorem popped_out (s : State) (i : RegIndex) : (popped s i).out = s.out := rfl
@[simp] theorem popped_diag (s : State) (i : RegIndex) : (popped s i).diag = s.diag := rfl

theorem popped_sp_seven (s : State) : (popped s 7).sp = s.mem.read s.sp.toNat + 1 := by
  simp [popped, State.sp, State.spIndex]

theorem popped_sp (s : State) {i : RegIndex} (h : i ≠ 7) : (popped s i).sp = s.sp + 1 := by
  simp [popped, State.sp, State.spIndex, State.reg_setReg, h]

theorem popped_reg_same (s : State) {i : RegIndex} (h : i ≠ 7) : (popped s i).reg i = s.mem.read s.sp.toNat := by
  simp [popped, State.spIndex, State.reg_setReg, Ne.symm h]

theorem popped_reg_other (s : State) {i k : RegIndex} (hi : k ≠ i) (h : k ≠ 7) : (popped s i).reg k = s.reg k := by
  simp [popped, State.spIndex, State.reg_setReg, Ne.symm h, Ne.symm hi]

/-- A pop with SP at the sentinel only reports. -/
theorem pop_of_empty {s : State} (i : RegIndex) (h : s.sp = emptyStackSentinel) :
    pop s i = .ok (s.report (.emptyStack s.pc i)) := by
  simp [pop, h]

/-- A pop with SP off the sentinel always succeeds. -/
theorem pop_of_nonempty {s : State} (i : RegIndex) (h : s.sp ≠ emptyStackSentinel) :
    pop s i = .ok (popped s i) := by
  rw [pop, if_neg h, memRead_byte]
  rfl

@[simp] theorem pcSequencer_next (len : Nat) (s t : State) :
    pcSequencer len s (.ok (t, .next)) = .next (t.advance len) := rfl

@[simp] theorem pcSequencer_jump (len : Nat) (s t : State) (v : Byte) :
    pcSequencer len s (.ok (t, .jump v)) = .next (t.jump v) := rfl

@[simp] theorem pcSequencer_error (len : Nat) (s : State) (f : FaultRecord) :
    pcSequencer len s (.error f) = .next (s.raise f) := rfl

@[simp] theorem except_ok_bind {ε α β : Type} (a : α) (f : α → Except ε β) : (Except.ok a >>= f) = f a := rfl

@[simp] theorem except_error_bind {ε α β : Type} (e : ε) (f : α → Except ε β) :
    ((Except.error e : Except ε α) >>= f) = .error e := rfl

@[simp] theorem except_pure {ε α : Type} (a : α) : (pure a : Except ε α) = .ok a := rfl

@[simp] theorem writeBack_value (s : State) (i : RegIndex) (v : Byte) :
    writeBack s i (.value v) = s.setReg i v.toNat := rfl

@[simp] theorem writeBack_flags (s : State) (i : RegIndex) (v : Byte) :
    writeBack s i ⟨none, some v⟩ = s.setFlags v := rfl

/-- A register-to-register instruction on valid operands, given what the ALU returns. -/
theorem execRR_eq (op : Mnemonic) (a b : RegIndex) (s : State) {o : AluOutput}
    (h : alu op (s.reg a) (s.reg b) = .ok o) :
    execRR op (regByte a) (regByte b) s = .next ((writeBack s a o).advance op.length) := by
  simp [execRR, h]

/-- A register-to-register instruction whose first operand byte is above 7. -/
theorem execRR_of_bad_first (op : Mnemonic) {a : Byte} (b : Byte) (s : State) (h : 7 < a.toNat) :
    execRR op a b s = .next (s.raise (.outOfBoundsRegister a.toNat)) := by
  simp [execRR, regIndex_of_big h]

/-- A register-to-register instruction whose second operand byte alone is above 7. -/
theorem execRR_of_bad_second (op : Mnemonic) (a : RegIndex) {b : Byte} (s : State) (h : 7 < b.toNat) :
    execRR op (regByte a) b s = .next (s.raise (.outOfBoundsRegister b.toNat)) := by
  simp [execRR, regIndex_of_big h]

/-- The return address of a CALL whose pc + 2 is an address. -/
theorem returnAddress_bound {n : Nat} (h : n < 256) : (truncate (n : Int)).toNat = n := by
  rw [truncate_natCast_toNat, Nat.mod_eq_of_lt h]

/-- The flags byte of a comparison is one of three. -/
theorem compareFlags_cases (a b : Byte) :
    compareFlags a b = 0x01#8 ∨ compareFlags a b = 0x02#8 ∨ compareFlags a b = 0x04#8 := by
  unfold compareFlags
  split
  · exact .inl rfl
  · split
    · exact .inr (.inl rfl)
    · exact .inr (.inr rfl)

end Sys2Proof.Machine
end

