-- ==== Sys2Proof/Laws/Exec.lean ====
section
/-! SUPPORT. Everything an instruction can do, said once: `Effect s i t` holds of the one state `t` that `exec i s` answers. -/

namespace Sys2Proof.Machine

/-- The value an instruction that writes one register from registers computes, for the seven ALU instructions that have one. -/
inductive AluEffect (s : State) : Instr → RegIndex → Byte → Nat → Prop
  | add (a b : RegIndex) : AluEffect s (.add (regByte a) (regByte b)) a (truncate ((s.reg a).toNat + (s.reg b).toNat)) 3
  | mul (a b : RegIndex) : AluEffect s (.mul (regByte a) (regByte b)) a (truncate ((s.reg a).toNat * (s.reg b).toNat)) 3
  | and (a b : RegIndex) : AluEffect s (.and (regByte a) (regByte b)) a (s.reg a &&& s.reg b) 3
  | or (a b : RegIndex) : AluEffect s (.or (regByte a) (regByte b)) a (s.reg a ||| s.reg b) 3
  | xor (a b : RegIndex) : AluEffect s (.xor (regByte a) (regByte b)) a (s.reg a ^^^ s.reg b) 3
  | not (a : RegIndex) : AluEffect s (.not (regByte a)) a (0xFF#8 ^^^ s.reg a) 2
  | shl (a b : RegIndex) :
      AluEffect s (.shl (regByte a) (regByte b)) a (truncate ((s.reg a).toNat * 2 ^ shlCount (s.reg b))) 3

/-- The state an instruction leaves, case by case. -/
inductive Effect (s : State) : Instr → State → Prop
  | badRegister (i : Instr) (b : Byte) (h : i.badRegister = some b) : Effect s i (s.raise (.outOfBoundsRegister b.toNat))
  | hlt : Effect s .hlt (s.halt.advance 1)
  | ldi (r : RegIndex) (imm : Byte) : Effect s (.ldi (regByte r) imm) ((s.setReg r imm.toNat).advance 3)
  | prn (r : RegIndex) : Effect s (.prn (regByte r)) ((s.emit (s.reg r)).advance 2)
  | alu (i : Instr) (a : RegIndex) (v : Byte) (len : Nat) (h : AluEffect s i a v len) :
      Effect s i ((s.setReg a v.toNat).advance len)
  | cmp (a b : RegIndex) :
      Effect s (.cmp (regByte a) (regByte b)) ((s.setFlags (compareFlags (s.reg a) (s.reg b))).advance 3)
  | push (r : RegIndex) : Effect s (.push (regByte r)) ((pushed s ((lowered s).reg r)).advance 2)
  | popEmpty (r : RegIndex) (h : s.sp = emptyStackSentinel) :
      Effect s (.pop (regByte r)) ((s.report (.emptyStack s.pc r)).advance 2)
  | pop (r : RegIndex) (h : s.sp ≠ emptyStackSentinel) : Effect s (.pop (regByte r)) ((popped s r).advance 2)
  | callFault (r : RegIndex) (h : 256 ≤ s.pc + 2) : Effect s (.call (regByte r)) (s.raise (.outOfBoundsMemory (s.pc + 2)))
  | call (r : RegIndex) (h : s.pc + 2 < 256) : Effect s (.call (regByte r))
      ((pushed s (truncate ((s.pc + 2 : Nat) : Int))).jump ((pushed s (truncate ((s.pc + 2 : Nat) : Int))).reg r))
  | retEmpty (r : RegIndex) (h : s.sp = emptyStackSentinel) :
      Effect s (.ret (regByte r)) ((s.report (.emptyStack s.pc r)).jump (s.reg r))
  | ret (r : RegIndex) (h : s.sp ≠ emptyStackSentinel) :
      Effect s (.ret (regByte r)) ((popped s r).jump ((popped s r).reg r))
  | jmp (r : RegIndex) : Effect s (.jmp (regByte r)) (s.jump (s.reg r))
  | jeqTaken (r : RegIndex) (h : s.flagE = true) : Effect s (.jeq (regByte r)) (s.jump (s.reg r))
  | jeqPassed (r : RegIndex) (h : s.flagE = false) : Effect s (.jeq (regByte r)) (s.advance 2)
  | jneTaken (r : RegIndex) (h : s.flagE = false) : Effect s (.jne (regByte r)) (s.jump (s.reg r))
  | jnePassed (r : RegIndex) (h : s.flagE = true) : Effect s (.jne (regByte r)) (s.advance 2)

/-- The first operand byte above 7 of an instruction with one register operand. -/
theorem badRegister_one {i : Instr} {r b : Byte} (hi : i.regOperands = [r]) (h : i.badRegister = some b) :
    b = r ∧ 7 < r.toNat := by
  simp only [Instr.badRegister, hi, List.find?_cons, List.find?_nil] at h
  split at h <;> simp_all

/-- The first operand byte above 7 of an instruction with two register operands. -/
theorem badRegister_two {i : Instr} {r q b : Byte} (hi : i.regOperands = [r, q]) (h : i.badRegister = some b) :
    (b = r ∧ 7 < r.toNat) ∨ (b = q ∧ 7 < q.toNat ∧ ∃ k, r = regByte k) := by
  rcases regByte_cases r with ⟨k, rfl⟩ | hr
  · have hk := k.isLt
    simp only [Instr.badRegister, hi, List.find?_cons, List.find?_nil, regByte_toNat,
      show ¬ 7 < k.val by omega, decide_false] at h
    split at h <;> simp_all
  · simp only [Instr.badRegister, hi, List.find?_cons, hr, decide_true, Option.some.injEq] at h
    exact .inl ⟨h.symm, hr⟩

/-- The register check of an instruction with one register operand. -/
theorem pcSequencer_of_bad (len : Nat) (s : State) {r : Byte} (f : RegIndex → Except FaultRecord (State × Sequel))
    (h : 7 < r.toNat) : pcSequencer len s (regIndex r >>= f) = .next (s.raise (.outOfBoundsRegister r.toNat)) := by
  simp [regIndex_of_big h]

/-- An operand byte above 7 raises OutOfBounds(Register), whatever the instruction (40_cycle.md R86). -/
theorem execRR_of_bad {op : Mnemonic} {a b c : Byte} (s : State)
    (h : (c = a ∧ 7 < a.toNat) ∨ (c = b ∧ 7 < b.toNat ∧ ∃ k, a = regByte k)) :
    execRR op a b s = .next (s.raise (.outOfBoundsRegister c.toNat)) := by
  rcases h with ⟨rfl, h⟩ | ⟨rfl, h, k, rfl⟩
  · exact execRR_of_bad_first op b s h
  · exact execRR_of_bad_second op k s h

/-- The same for every instruction: the register check comes before any effect. -/
theorem exec_of_badRegister {i : Instr} {b : Byte} (s : State) (h : i.badRegister = some b) :
    exec i s = .next (s.raise (.outOfBoundsRegister b.toNat)) := by
  cases i with
  | hlt => simp [Instr.badRegister, Instr.regOperands] at h
  | ldi r imm => obtain ⟨rfl, h⟩ := badRegister_one rfl h; exact pcSequencer_of_bad _ s _ h
  | prn r => obtain ⟨rfl, h⟩ := badRegister_one rfl h; exact pcSequencer_of_bad _ s _ h
  | mul r q => exact execRR_of_bad s (badRegister_two rfl h)
  | add r q => exact execRR_of_bad s (badRegister_two rfl h)
  | and r q => exact execRR_of_bad s (badRegister_two rfl h)
  | or r q => exact execRR_of_bad s (badRegister_two rfl h)
  | xor r q => exact execRR_of_bad s (badRegister_two rfl h)
  | not r => obtain ⟨rfl, h⟩ := badRegister_one rfl h; exact pcSequencer_of_bad _ s _ h
  | shl r q => exact execRR_of_bad s (badRegister_two rfl h)
  | cmp r q => exact execRR_of_bad s (badRegister_two rfl h)
  | push r => obtain ⟨rfl, h⟩ := badRegister_one rfl h; exact pcSequencer_of_bad _ s _ h
  | pop r => obtain ⟨rfl, h⟩ := badRegister_one rfl h; exact pcSequencer_of_bad _ s _ h
  | call r => obtain ⟨rfl, h⟩ := badRegister_one rfl h; exact pcSequencer_of_bad _ s _ h
  | ret r => obtain ⟨rfl, h⟩ := badRegister_one rfl h; exact pcSequencer_of_bad _ s _ h
  | jmp r => obtain ⟨rfl, h⟩ := badRegister_one rfl h; exact pcSequencer_of_bad _ s _ h
  | jeq r => obtain ⟨rfl, h⟩ := badRegister_one rfl h; exact pcSequencer_of_bad _ s _ h
  | jne r => obtain ⟨rfl, h⟩ := badRegister_one rfl h; exact pcSequencer_of_bad _ s _ h

/-- CALL's return address where it is an address. -/
theorem returnAddress_ok {s : State} (h : s.pc + 2 < 256) : returnAddress s = .ok (truncate ((s.pc + 2 : Nat) : Int)) :=
  if_pos h

/-- CALL's return address where it is none. -/
theorem returnAddress_error {s : State} (h : 256 ≤ s.pc + 2) : returnAddress s = .error (.outOfBoundsMemory (s.pc + 2)) :=
  if_neg (Nat.not_lt.2 h)

/-- An ALU instruction with a result leaves the state its effect says. -/
theorem exec_of_aluEffect {s : State} {i : Instr} {a : RegIndex} {v : Byte} {len : Nat} (h : AluEffect s i a v len) :
    exec i s = .next ((s.setReg a v.toNat).advance len) := by
  cases h with
  | add a b => exact execRR_eq .add a b s rfl
  | mul a b => exact execRR_eq .mul a b s rfl
  | and a b => exact execRR_eq .and a b s rfl
  | or a b => exact execRR_eq .or a b s rfl
  | xor a b => exact execRR_eq .xor a b s rfl
  | not a => simp only [exec, execNot, alu, regIndex_regByte, except_ok_bind, except_pure, pcSequencer_next]; rfl
  | shl a b => exact execRR_eq .shl a b s rfl

/-- An instruction leaves the state its effect says. -/
theorem exec_of_effect {s t : State} {i : Instr} (h : Effect s i t) : exec i s = .next t := by
  cases h with
  | badRegister _ b h => exact exec_of_badRegister s h
  | hlt => rfl
  | ldi r imm => simp only [exec, execLdi, regIndex_regByte, except_ok_bind, except_pure, pcSequencer_next]; rfl
  | prn r => simp only [exec, execPrn, regIndex_regByte, except_ok_bind, except_pure, pcSequencer_next]; rfl
  | alu _ a v len h => exact exec_of_aluEffect h
  | cmp a b => exact execRR_eq .cmp a b s rfl
  | push r =>
    simp only [exec, execPush, regIndex_regByte, except_ok_bind, except_pure, push_eq, pcSequencer_next]; rfl
  | popEmpty r h =>
    simp only [exec, execPop, regIndex_regByte, except_ok_bind, except_pure, pop_of_empty r h, pcSequencer_next]; rfl
  | pop r h =>
    simp only [exec, execPop, regIndex_regByte, except_ok_bind, except_pure, pop_of_nonempty r h, pcSequencer_next]; rfl
  | callFault r h =>
    simp only [exec, execCall, regIndex_regByte, except_ok_bind, except_error_bind, returnAddress_error h, pcSequencer_error]
  | call r h =>
    simp only [exec, execCall, regIndex_regByte, except_ok_bind, except_pure, returnAddress_ok h, push_eq, pcSequencer_jump]
  | retEmpty r h =>
    simp only [exec, execRet, regIndex_regByte, except_ok_bind, except_pure, pop_of_empty r h, pcSequencer_jump]; rfl
  | ret r h =>
    simp only [exec, execRet, regIndex_regByte, except_ok_bind, except_pure, pop_of_nonempty r h, pcSequencer_jump]
  | jmp r => simp only [exec, execJmp, regIndex_regByte, except_ok_bind, except_pure, pcSequencer_jump]
  | jeqTaken r h => simp [exec, execJeq, h]
  | jeqPassed r h => simp [exec, execJeq, h, Mnemonic.length, Mnemonic.format, Format.operandCount]
  | jneTaken r h => simp [exec, execJne, h]
  | jnePassed r h => simp [exec, execJne, h, Mnemonic.length, Mnemonic.format, Format.operandCount]

/-- Some effect with one register operand: the check's, or the one on a valid operand. -/
theorem effect_total_one {s : State} {c : Byte → Instr} (hc : ∀ r, (c r).regOperands = [r])
    (hv : ∀ k : RegIndex, ∃ t, Effect s (c (regByte k)) t) (r : Byte) : ∃ t, Effect s (c r) t := by
  rcases regByte_cases r with ⟨k, rfl⟩ | hr
  · exact hv k
  · exact ⟨_, .badRegister _ r (by simp [Instr.badRegister, hc, hr])⟩

/-- Some effect with two register operands. -/
theorem effect_total_two {s : State} {c : Byte → Byte → Instr} (hc : ∀ r q, (c r q).regOperands = [r, q])
    (hv : ∀ k l : RegIndex, ∃ t, Effect s (c (regByte k) (regByte l)) t) (r q : Byte) : ∃ t, Effect s (c r q) t := by
  rcases regByte_cases r with ⟨k, rfl⟩ | hr
  · have hk := k.isLt
    rcases regByte_cases q with ⟨l, rfl⟩ | hq
    · exact hv k l
    · exact ⟨_, .badRegister _ q (by simp [Instr.badRegister, hc, hq, show ¬ 7 < k.val by omega])⟩
  · exact ⟨_, .badRegister _ r (by simp [Instr.badRegister, hc, hr])⟩

/-- Every instruction has an effect in every state. -/
theorem effect_total (s : State) (i : Instr) : ∃ t, Effect s i t := by
  cases i with
  | hlt => exact ⟨_, .hlt⟩
  | ldi r imm => exact effect_total_one (c := fun r => .ldi r imm) (fun _ => rfl) (fun k => ⟨_, .ldi k imm⟩) r
  | prn r => exact effect_total_one (c := .prn) (fun _ => rfl) (fun k => ⟨_, .prn k⟩) r
  | mul r q => exact effect_total_two (c := .mul) (fun _ _ => rfl) (fun k l => ⟨_, .alu _ _ _ _ (.mul k l)⟩) r q
  | add r q => exact effect_total_two (c := .add) (fun _ _ => rfl) (fun k l => ⟨_, .alu _ _ _ _ (.add k l)⟩) r q
  | and r q => exact effect_total_two (c := .and) (fun _ _ => rfl) (fun k l => ⟨_, .alu _ _ _ _ (.and k l)⟩) r q
  | or r q => exact effect_total_two (c := .or) (fun _ _ => rfl) (fun k l => ⟨_, .alu _ _ _ _ (.or k l)⟩) r q
  | xor r q => exact effect_total_two (c := .xor) (fun _ _ => rfl) (fun k l => ⟨_, .alu _ _ _ _ (.xor k l)⟩) r q
  | not r => exact effect_total_one (c := .not) (fun _ => rfl) (fun k => ⟨_, .alu _ _ _ _ (.not k)⟩) r
  | shl r q => exact effect_total_two (c := .shl) (fun _ _ => rfl) (fun k l => ⟨_, .alu _ _ _ _ (.shl k l)⟩) r q
  | cmp r q => exact effect_total_two (c := .cmp) (fun _ _ => rfl) (fun k l => ⟨_, .cmp k l⟩) r q
  | push r => exact effect_total_one (c := .push) (fun _ => rfl) (fun k => ⟨_, .push k⟩) r
  | pop r =>
    refine effect_total_one (c := .pop) (fun _ => rfl) (fun k => ?_) r
    by_cases h : s.sp = emptyStackSentinel
    · exact ⟨_, .popEmpty k h⟩
    · exact ⟨_, .pop k h⟩
  | call r =>
    refine effect_total_one (c := .call) (fun _ => rfl) (fun k => ?_) r
    by_cases h : s.pc + 2 < 256
    · exact ⟨_, .call k h⟩
    · exact ⟨_, .callFault k (Nat.not_lt.1 h)⟩
  | ret r =>
    refine effect_total_one (c := .ret) (fun _ => rfl) (fun k => ?_) r
    by_cases h : s.sp = emptyStackSentinel
    · exact ⟨_, .retEmpty k h⟩
    · exact ⟨_, .ret k h⟩
  | jmp r => exact effect_total_one (c := .jmp) (fun _ => rfl) (fun k => ⟨_, .jmp k⟩) r
  | jeq r =>
    refine effect_total_one (c := .jeq) (fun _ => rfl) (fun k => ?_) r
    cases h : s.flagE with
    | true => exact ⟨_, .jeqTaken k h⟩
    | false => exact ⟨_, .jeqPassed k h⟩
  | jne r =>
    refine effect_total_one (c := .jne) (fun _ => rfl) (fun k => ?_) r
    cases h : s.flagE with
    | true => exact ⟨_, .jnePassed k h⟩
    | false => exact ⟨_, .jneTaken k h⟩

/-- Executing an instruction is its effect: the case split of every rule about all instructions. -/
theorem exec_eq_next_iff {i : Instr} {s t : State} : exec i s = .next t ↔ Effect s i t := by
  refine ⟨fun h => ?_, exec_of_effect⟩
  obtain ⟨u, hu⟩ := effect_total s i
  rw [exec_of_effect hu] at h
  cases h
  exact hu

end Sys2Proof.Machine
end

