-- ==== Sys2Proof/Laws/Step.lean ====
section
/-! SUPPORT. What a fetch reads and what a step can do. -/

namespace Sys2Proof.Machine

/-- The fetch window with all three cells in memory. -/
theorem fetchWindow_three {s : State} (h : s.pc + 2 < 256) :
    fetchWindow s = [s.mem.read s.pc, s.mem.read (s.pc + 1), s.mem.read (s.pc + 2)] := by
  simp [fetchWindow, maxLength, List.range, List.range.loop, memRead_of_lt s (show s.pc < 256 by omega),
    memRead_of_lt s (show s.pc + 1 < 256 by omega), memRead_of_lt s h, Except.toOption]

/-- The fetch window at 254. -/
theorem fetchWindow_two {s : State} (h : s.pc = 254) : fetchWindow s = [s.mem.read 254, s.mem.read 255] := by
  simp [fetchWindow, maxLength, List.range, List.range.loop, h, memRead_of_lt s (show 254 < 256 by omega),
    memRead_of_lt s (show 255 < 256 by omega), memRead_of_ge s (Nat.le_refl 256), Except.toOption]

/-- The fetch window at 255. -/
theorem fetchWindow_one {s : State} (h : s.pc = 255) : fetchWindow s = [s.mem.read 255] := by
  simp [fetchWindow, maxLength, List.range, List.range.loop, h,
    memRead_of_lt s (show 255 < 256 by omega), memRead_of_ge s (Nat.le_refl 256),
    memRead_of_ge s (show 256 ≤ 257 by omega), Except.toOption]

/-- The fetch window past memory. -/
theorem fetchWindow_none {s : State} (h : 256 ≤ s.pc) : fetchWindow s = [] := by
  simp [fetchWindow, maxLength, List.range, List.range.loop, memRead_of_ge s h,
    memRead_of_ge s (show 256 ≤ s.pc + 1 by omega), memRead_of_ge s (show 256 ≤ s.pc + 2 by omega), Except.toOption]

/-- A window that is not empty starts with the byte at the PC. -/
theorem fetchWindow_head {s : State} (h : s.pc < 256) : ∃ rest, fetchWindow s = s.mem.read s.pc :: rest := by
  rcases Nat.lt_or_ge (s.pc + 2) 256 with h3 | h3
  · exact ⟨_, fetchWindow_three h3⟩
  · rcases Nat.lt_or_ge (s.pc + 1) 256 with h2 | h2
    · have hp : s.pc = 254 := by omega
      exact ⟨_, by rw [fetchWindow_two hp, hp]⟩
    · have hp : s.pc = 255 := by omega
      exact ⟨_, by rw [fetchWindow_one hp, hp]⟩

/-- Bytes that stand in memory from the PC on are the head of the window. -/
theorem fetchWindow_of_bytes {s : State} {bytes : List Byte} (hl : bytes.length ≤ 3) (hp : s.pc + bytes.length ≤ 256)
    (h : ∀ k b, bytes[k]? = some b → s.mem.read (s.pc + k) = b) : ∃ rest, fetchWindow s = bytes ++ rest := by
  match bytes, hl with
  | [], _ => exact ⟨_, rfl⟩
  | [a], _ =>
    simp only [List.length_cons, List.length_nil] at hp
    obtain ⟨r, hr⟩ := fetchWindow_head (s := s) (by omega)
    exact ⟨r, by rw [hr, ← h 0 a rfl]; rfl⟩
  | [a, b], _ =>
    simp only [List.length_cons, List.length_nil] at hp
    have h0 := h 0 a rfl
    have h1 := h 1 b rfl
    rcases Nat.lt_or_ge (s.pc + 2) 256 with h3 | h3
    · exact ⟨_, by rw [fetchWindow_three h3, ← h0, ← h1]; rfl⟩
    · have hp : s.pc = 254 := by omega
      exact ⟨_, by rw [fetchWindow_two hp, ← h0, ← h1, hp]; rfl⟩
  | [a, b, c], _ =>
    simp only [List.length_cons, List.length_nil] at hp
    have h0 := h 0 a rfl
    have h1 := h 1 b rfl
    have h2 := h 2 c rfl
    exact ⟨[], by rw [fetchWindow_three (by omega), ← h0, ← h1, ← h2]; rfl⟩

/-- A fetched instruction is well formed, lies within memory, and has the opcode byte that stands at the PC. -/
theorem fetch_ok {opc : Config.OpcodeMap} {s : State} {i : Instr} (h : fetch opc s = .ok i) :
    i.WellFormed ∧ s.pc < 256 ∧ s.mem.read s.pc = opc.byte i.mnemonic ∧
      ∃ rest, decodeWith opc (fetchWindow s) = .ok (i, rest) := by
  unfold fetch at h
  cases hd : decodeWith opc (fetchWindow s) with
  | error e => simp [hd] at h
  | ok p =>
    obtain ⟨j, rest⟩ := p
    simp only [hd, Except.ok.injEq] at h
    subst h
    have hp : s.pc < 256 := by
      refine Nat.lt_of_not_le fun hge => ?_
      simp [fetchWindow_none hge, decodeWith] at hd
    obtain ⟨tail, hw⟩ := fetchWindow_head hp
    refine ⟨?_, hp, ?_, rest, rfl⟩
    · rw [hw, decodeWith] at hd
      split at hd
      · cases hd
      · exact (takeOperands_eq_ok.1 hd).2.1
    · rw [hw, decodeWith] at hd
      split at hd
      · cases hd
      · rename_i m hm
        rw [(takeOperands_eq_ok.1 hd).1, lookup_eq_some.1 hm]

theorem whenStopped_eq_none {s : State} : whenStopped s = none ↔ s.run = .running := by
  unfold whenStopped
  cases s.run <;> simp

/-- A step of a Running machine is the fetched instruction or the fetch's fault. -/
theorem stepWith_running (opc : Config.OpcodeMap) {s : State} (h : s.run = .running) :
    stepWith opc s = match fetch opc s with
      | .ok i => exec i s
      | .error f => .next (s.raise f) := by
  cases hf : fetch opc s <;> simp [stepWith, whenStopped_eq_none.2 h, hf]

/-- A step of a Running machine whose window does not decode raises the decoder's fault. -/
theorem step_of_decode_error {s : State} (hr : s.run = .running) {e : DecodeError} (h : decode (fetchWindow s) = .error e) :
    step s = .next (s.raise (decodeFault s.pc e)) := by
  rw [decode] at h
  rw [step, stepWith_running _ hr, fetch, h]

/-- Everything a step can do, if it answers a next state: the machine was Running, and either an instruction was fetched and had its
effect, or the fetch's fault was raised. -/
theorem stepWith_cases {opc : Config.OpcodeMap} {s t : State} (h : stepWith opc s = .next t) :
    s.run = .running ∧
      ((∃ i, fetch opc s = .ok i ∧ Effect s i t) ∨ ∃ f, fetch opc s = .error f ∧ t = s.raise f) := by
  have hr : s.run = .running := by
    rw [← whenStopped_eq_none]
    unfold stepWith whenStopped at h
    unfold whenStopped
    cases hs : s.run <;> simp [hs] at h ⊢
  refine ⟨hr, ?_⟩
  rw [stepWith_running opc hr] at h
  cases hf : fetch opc s with
  | ok i => rw [hf] at h; exact .inl ⟨i, rfl, exec_eq_next_iff.1 h⟩
  | error f => rw [hf] at h; cases h; exact .inr ⟨f, rfl, rfl⟩

end Sys2Proof.Machine
end

