-- ==== Sys2Proof/Laws/Fetch.lean ====
section
/-! SUPPORT. Bytes placed in memory, what a fetched instruction needs of the PC, and effects in states that share their registers. -/

namespace Sys2Proof.Machine

/-- Placing bytes keeps the canonical form. -/
theorem wf_writeBytes {m : Memory} (hm : m.wf) (a : Nat) (bs : List Byte) : (writeBytes m a bs).wf := by
  induction bs generalizing m a with
  | nil => exact hm
  | cons v vs ih =>
    rw [writeBytes]
    apply ih
    split
    · exact Memory.wf_write hm ‹_› v
    · exact hm

/-- Placing bytes leaves the cells before them alone. -/
theorem read_writeBytes_before {m : Memory} {a k : Nat} (h : k < a) (bs : List Byte) :
    (writeBytes m a bs).read k = m.read k := by
  induction bs generalizing m a with
  | nil => rfl
  | cons v vs ih =>
    rw [writeBytes, ih (by omega)]
    split
    · exact Memory.read_write_other m v (by omega)
    · rfl

/-- Placing bytes leaves the cells after them alone. -/
theorem read_writeBytes_after {m : Memory} {a k : Nat} (bs : List Byte) (h : a + bs.length ≤ k) :
    (writeBytes m a bs).read k = m.read k := by
  induction bs generalizing m a with
  | nil => rfl
  | cons v vs ih =>
    rw [List.length_cons] at h
    rw [writeBytes, ih (by omega)]
    split
    · exact Memory.read_write_other m v (by omega)
    · rfl

/-- A placed byte is read back where there is a cell for it. -/
theorem read_writeBytes {m : Memory} (hm : m.wf) {a k : Nat} {bs : List Byte} {v : Byte} (h : bs[k]? = some v)
    (hk : a + k < 256) : (writeBytes m a bs).read (a + k) = v := by
  induction bs generalizing m a k with
  | nil => simp at h
  | cons w ws ih =>
    rw [writeBytes]
    cases k with
    | zero =>
      obtain rfl : w = v := by simpa using h
      rw [if_pos (by simpa [Config.memSize] using hk), read_writeBytes_before (by omega)]
      exact Memory.read_write_same hm _ _
    | succ k =>
      rw [show a + (k + 1) = (a + 1) + k by omega]
      refine ih ?_ (by simpa using h) (by omega)
      split
      · exact Memory.wf_write hm ‹_› w
      · exact hm

/-- The window is as long as the cells from the PC on allow. -/
theorem fetchWindow_length_le {s : State} (h : s.pc < 256) : s.pc + (fetchWindow s).length ≤ 256 := by
  rcases Nat.lt_or_ge (s.pc + 2) 256 with h3 | h3
  · rw [fetchWindow_three h3]; simp only [List.length_cons, List.length_nil]; omega
  · rcases (show s.pc = 254 ∨ s.pc = 255 by omega) with hp | hp
    · rw [fetchWindow_two hp, hp]; exact Nat.le_refl 256
    · rw [fetchWindow_one hp, hp]; exact Nat.le_refl 256

/-- A fetched instruction lies within the 256 cells, so a sequential advance never takes the PC past 256 (log entry 6). -/
theorem fetch_length {opc : Config.OpcodeMap} {s : State} {i : Instr} (h : fetch opc s = .ok i) :
    s.pc + i.mnemonic.length ≤ 256 := by
  obtain ⟨-, hp, hm, rest, hd⟩ := fetch_ok h
  have hw := fetchWindow_length_le hp
  obtain ⟨tail, ht⟩ := fetchWindow_head hp
  have hl : (fetchWindow s).length = i.mnemonic.length + rest.length := by
    rw [ht, hm, decodeWith, lookup_byte] at hd
    obtain ⟨-, -, htail⟩ := takeOperands_eq_ok.1 hd
    rw [ht, htail, List.length_cons, List.length_append, operandBytes_length, Mnemonic.length]
    omega
  omega

/-- The length an ALU effect advances by is its instruction's. -/
theorem aluEffect_length {s : State} {i : Instr} {a : RegIndex} {v : Byte} {len : Nat} (h : AluEffect s i a v len) :
    len = i.mnemonic.length := by
  cases h <;> rfl

/-- An ALU effect reads nothing but the registers. -/
theorem aluEffect_congr {s t : State} {i : Instr} {a : RegIndex} {v : Byte} {len : Nat} (h : AluEffect s i a v len)
    (hr : t.regs = s.regs) : AluEffect t i a v len := by
  have he : ∀ k, s.reg k = t.reg k := fun k => (State.reg_congr hr k).symm
  cases h <;> (simp only [he]; constructor)

end Sys2Proof.Machine
end

