-- ==== Sys2Proof/Laws/PerInstr.lean ====
section
/-! SUPPORT. Families of statements about instructions as syntax, one lemma per constructor. -/

namespace Sys2Proof.Laws

/-- An instruction's encoding starts with its kind's opcode byte and goes on with as many operand bytes as its format has
(30_encoding.md R60, R61), and its register operands stand first among them (40_cycle.md R86). -/
def EncodeShape.Statement (i : Instr) : Prop :=
  ∃ operands, encode i = defaultOpcode i.mnemonic :: operands ∧
    operands.length = i.mnemonic.format.operandCount ∧ i.regOperands <+: operands

namespace EncodeShape

theorem hlt : Statement .hlt := ⟨_, rfl, rfl, ⟨[], rfl⟩⟩
theorem ldi (r imm : Byte) : Statement (.ldi r imm) := ⟨_, rfl, rfl, ⟨[imm], rfl⟩⟩
theorem prn (r : Byte) : Statement (.prn r) := ⟨_, rfl, rfl, ⟨[], rfl⟩⟩
theorem mul (a b : Byte) : Statement (.mul a b) := ⟨_, rfl, rfl, ⟨[], rfl⟩⟩
theorem add (a b : Byte) : Statement (.add a b) := ⟨_, rfl, rfl, ⟨[], rfl⟩⟩
theorem and (a b : Byte) : Statement (.and a b) := ⟨_, rfl, rfl, ⟨[], rfl⟩⟩
theorem or (a b : Byte) : Statement (.or a b) := ⟨_, rfl, rfl, ⟨[], rfl⟩⟩
theorem xor (a b : Byte) : Statement (.xor a b) := ⟨_, rfl, rfl, ⟨[], rfl⟩⟩
theorem not (a : Byte) : Statement (.not a) := ⟨_, rfl, rfl, ⟨[], rfl⟩⟩
theorem shl (a b : Byte) : Statement (.shl a b) := ⟨_, rfl, rfl, ⟨[], rfl⟩⟩
theorem cmp (a b : Byte) : Statement (.cmp a b) := ⟨_, rfl, rfl, ⟨[], rfl⟩⟩
theorem push (r : Byte) : Statement (.push r) := ⟨_, rfl, rfl, ⟨[], rfl⟩⟩
theorem pop (r : Byte) : Statement (.pop r) := ⟨_, rfl, rfl, ⟨[], rfl⟩⟩
theorem call (r : Byte) : Statement (.call r) := ⟨_, rfl, rfl, ⟨[], rfl⟩⟩
theorem ret (r : Byte) : Statement (.ret r) := ⟨_, rfl, rfl, ⟨[], rfl⟩⟩
theorem jmp (r : Byte) : Statement (.jmp r) := ⟨_, rfl, rfl, ⟨[], rfl⟩⟩
theorem jeq (r : Byte) : Statement (.jeq r) := ⟨_, rfl, rfl, ⟨[], rfl⟩⟩
theorem jne (r : Byte) : Statement (.jne r) := ⟨_, rfl, rfl, ⟨[], rfl⟩⟩

end EncodeShape

end Sys2Proof.Laws
end

