-- ==== Sys2Proof/Tests/Slice0.lean ====
section
/-! SUPPORT. The model's own tests. Words are written out from 30_encoding.md R61 and R63, and expected results come from the vectors of
95_test_vectors.md (named in each comment) or from the examples of the instruction rules. The last part shows, for every statement
with hypotheses, a state and operands that meet them. -/

namespace Sys2Proof.Tests

open Sys2Proof.Machine

/-! ### Well-formedness refuses each ill-formed shape -/

theorem test_wellFormed_good : (Instr.add 0#8 7#8).WellFormed := by decide
theorem test_wellFormed_any_immediate : (Instr.ldi 7#8 0xFF#8).WellFormed := by decide
theorem test_wellFormed_refuses_only_operand : ¬ (Instr.push 8#8).WellFormed := by decide
theorem test_wellFormed_refuses_ldi_register : ¬ (Instr.ldi 8#8 0#8).WellFormed := by decide
theorem test_wellFormed_refuses_first_operand : ¬ (Instr.add 8#8 0#8).WellFormed := by decide
theorem test_wellFormed_refuses_second_operand : ¬ (Instr.add 0#8 255#8).WellFormed := by decide

/-! ### Every constructor's decoding, from its bits in R63 -/

theorem test_decode_hlt : decode [0b00000001#8] = .ok (.hlt, []) := by decide
theorem test_decode_ldi : decode [0b10000010#8, 0b00000011#8, 0b11001000#8] = .ok (.ldi 3#8 200#8, []) := by decide
theorem test_decode_prn : decode [0b01000111#8, 0b00000111#8] = .ok (.prn 7#8, []) := by decide
theorem test_decode_mul : decode [0b10100010#8, 0b00000000#8, 0b00000001#8] = .ok (.mul 0#8 1#8, []) := by decide
theorem test_decode_add : decode [0b10100000#8, 0b00000010#8, 0b00000011#8] = .ok (.add 2#8 3#8, []) := by decide
theorem test_decode_and : decode [0b10101000#8, 0b00000001#8, 0b00000000#8] = .ok (.and 1#8 0#8, []) := by decide
theorem test_decode_or : decode [0b10101010#8, 0b00000000#8, 0b00000110#8] = .ok (.or 0#8 6#8, []) := by decide
theorem test_decode_xor : decode [0b10101011#8, 0b00000001#8, 0b00000001#8] = .ok (.xor 1#8 1#8, []) := by decide
theorem test_decode_not : decode [0b01101001#8, 0b00000010#8] = .ok (.not 2#8, []) := by decide
theorem test_decode_shl : decode [0b10101100#8, 0b00000000#8, 0b00000001#8] = .ok (.shl 0#8 1#8, []) := by decide
theorem test_decode_cmp : decode [0b10100111#8, 0b00000011#8, 0b00000100#8] = .ok (.cmp 3#8 4#8, []) := by decide
theorem test_decode_push : decode [0b01000101#8, 0b00000000#8] = .ok (.push 0#8, []) := by decide
theorem test_decode_pop : decode [0b01000110#8, 0b00000001#8] = .ok (.pop 1#8, []) := by decide
theorem test_decode_call : decode [0b01010000#8, 0b00000001#8] = .ok (.call 1#8, []) := by decide
theorem test_decode_ret : decode [0b00010001#8, 0b00000010#8] = .ok (.ret 2#8, []) := by decide
theorem test_decode_jmp : decode [0b01010100#8, 0b00000011#8] = .ok (.jmp 3#8, []) := by decide
theorem test_decode_jeq : decode [0b01010101#8, 0b00000011#8] = .ok (.jeq 3#8, []) := by decide
theorem test_decode_jne : decode [0b01010110#8, 0b00000011#8] = .ok (.jne 3#8, []) := by decide

theorem test_decode_keeps_the_rest : decode [0x01#8, 0xFF#8] = .ok (.hlt, [0xFF#8]) := by decide
theorem test_decode_refuses_unknown : decode [0xA1#8, 0#8, 1#8] = .error (.unknownOpcode 0xA1#8) := by decide
theorem test_decode_refuses_register : decode [0xA0#8, 0x09#8, 0x08#8] = .error (.badRegister 0x09#8) := by decide
theorem test_decode_refuses_short : decode [0xA0#8, 0x00#8] = .error (.missingByte 2) := by decide

/-! ### Words of the opcode table: byte 0 is the most significant -/

theorem test_tableWord_hlt : decodeTableWord 8 0x01 = some .hlt := by decide
theorem test_tableWord_not : decodeTableWord 16 0x6902 = some (.not 2#8) := by decide
theorem test_tableWord_ldi : decodeTableWord 24 0x820008 = some (.ldi 0#8 8#8) := by decide
theorem test_tableWord_unknown : decodeTableWord 8 0x00 = none := by decide

/-! ### One step on a small state -/

/-- A Running machine with some bytes from the PC on, all other cells 0. -/
def machine (pc : Nat) (bytes : List Byte) (x : Vector Byte 8) (fl : Byte) : State :=
  { State.reset with mem := writeBytes [] pc bytes, regs := x, fl := fl, pc := pc }

/-- `s` with one more byte in memory. -/
def withCell (s : State) (a : Nat) (v : Byte) : State := { s with mem := s.mem.write a v }

/-- What `f` shows of the next state, if there is one. -/
def seen {α : Type} (f : State → α) (s : State) : Option α :=
  match step s with
  | .next t => some (f t)
  | .fault _ => none
  | .refused _ => none


/-- H1. -/
theorem test_hlt : seen (fun t => (t.run, t.pc)) (machine 11 [0x01] #v[0, 0, 0, 0, 0, 0, 0, 0xf4] 0) = some (.halted, 12) := by decide

/-- H2. -/
theorem test_ldi : seen (fun t => (t.reg 0, t.pc)) (machine 0 [0x82, 0, 8] #v[0, 0, 0, 0, 0, 0, 0, 0xf4] 0) = some (8, 3) := by decide

/-- H3 and Y3. -/
theorem test_ldi_sp_at_253 : seen (fun t => (t.sp, t.pc)) (machine 253 [0x82, 7, 0x10] #v[0, 0, 0, 0, 0, 0, 0, 0xf4] 0) = some (0x10, 256) := by decide

/-- H5. -/
theorem test_prn : seen (fun t => (t.out, t.pc)) (machine 0 [0x47, 0] #v[0x48, 0, 0, 0, 0, 0, 0, 0xf4] 0) = some ([0x48], 2) := by decide

/-- H6. -/
theorem test_prn_sp : seen (fun t => t.out) (machine 0 [0x47, 7] #v[0, 0, 0, 0, 0, 0, 0, 0xf4] 0) = some [244] := by decide

/-- A1 and A26. -/
theorem test_add : seen (fun t => (t.reg 0, t.reg 1, t.fl, t.pc)) (machine 0 [0xA0, 0, 1] #v[5, 3, 0, 0, 0, 0, 0, 0xf4] 4) = some (8, 3, 4, 3) := by decide

/-- A4. -/
theorem test_add_wraps_same_register : seen (fun t => t.reg 0) (machine 0 [0xA0, 0, 0] #v[0x81, 0, 0, 0, 0, 0, 0, 0xf4] 0) = some 2 := by decide

/-- A5. -/
theorem test_mul : seen (fun t => (t.reg 0, t.reg 1)) (machine 0 [0xA2, 0, 1] #v[8, 9, 0, 0, 0, 0, 0, 0xf4] 0) = some (0x48, 9) := by decide

/-- A7. -/
theorem test_mul_wraps : seen (fun t => t.reg 0) (machine 0 [0xA2, 0, 1] #v[0xff, 0xff, 0, 0, 0, 0, 0, 0xf4] 0) = some 1 := by decide

/-- A9. -/
theorem test_and : seen (fun t => t.reg 0) (machine 0 [0xA8, 0, 1] #v[0xf0, 0x3c, 0, 0, 0, 0, 0, 0xf4] 0) = some 0x30 := by decide

/-- A10. -/
theorem test_or : seen (fun t => t.reg 0) (machine 0 [0xAA, 0, 1] #v[0xf0, 0xf, 0, 0, 0, 0, 0, 0xf4] 0) = some 0xFF := by decide

/-- A11. -/
theorem test_xor : seen (fun t => t.reg 0) (machine 0 [0xAB, 0, 1] #v[0xff, 0xf, 0, 0, 0, 0, 0, 0xf4] 0) = some 0xF0 := by decide

/-- A14. -/
theorem test_not : seen (fun t => (t.reg 2, t.pc)) (machine 0 [0x69, 2] #v[0, 0, 0xa5, 0, 0, 0, 0, 0xf4] 0) = some (0x5A, 2) := by decide

/-- A17. -/
theorem test_shl : seen (fun t => t.reg 0) (machine 0 [0xAC, 0, 1] #v[0xff, 7, 0, 0, 0, 0, 0, 0xf4] 0) = some 0x80 := by decide

/-- A18. -/
theorem test_shl_count_eight : seen (fun t => t.reg 0) (machine 0 [0xAC, 0, 1] #v[0xff, 8, 0, 0, 0, 0, 0, 0xf4] 0) = some 0 := by decide

/-- A21. -/
theorem test_cmp_greater : seen (fun t => (t.fl, t.reg 0, t.reg 1)) (machine 0 [0xA7, 0, 1] #v[5, 3, 0, 0, 0, 0, 0, 0xf4] 0) = some (4, 5, 3) := by decide

/-- A24. -/
theorem test_cmp_unsigned : seen (fun t => t.fl) (machine 0 [0xA7, 0, 1] #v[0, 0xff, 0, 0, 0, 0, 0, 0xf4] 1) = some 2 := by decide

/-- S1. -/
theorem test_push : seen (fun t => (t.sp, t.mem.read 0xF3, t.pc)) (machine 0 [0x45, 0] #v[0x2a, 0, 0, 0, 0, 0, 0, 0xf4] 0) = some (0xF3, 0x2A, 2) := by decide

/-- S4. -/
theorem test_push_sp : seen (fun t => (t.sp, t.mem.read 0xF3)) (machine 0 [0x45, 7] #v[0, 0, 0, 0, 0, 0, 0, 0xf4] 0) = some (0xF3, 0xF3) := by decide

/-- S2. -/
theorem test_pop : seen (fun t => (t.reg 1, t.sp, t.mem.read 0xF3)) (withCell (machine 0 [0x46, 1] #v[0, 0, 0, 0, 0, 0, 0, 0xf3] 0) 0xF3 0x2A) = some (0x2A, 0xF4, 0x2A) := by decide

/-- S3. -/
theorem test_pop_empty : seen (fun t => (t.diag, t.reg 1, t.sp, t.pc)) (machine 0 [0x46, 1] #v[0, 0x55, 0, 0, 0, 0, 0, 0xf4] 0) = some ([.emptyStack 0 1], 0x55, 0xF4, 2) := by decide

/-- T1. -/
theorem test_call : seen (fun t => (t.sp, t.mem.read 0xF3, t.pc)) (machine 3 [0x50, 1] #v[0, 8, 0, 0, 0, 0, 0, 0xf4] 0) = some (0xF3, 5, 8) := by decide

/-- T2. -/
theorem test_call_at_254 : seen (fun t => (t.run, t.sp, t.pc)) (machine 254 [0x50, 1] #v[0, 0x10, 0, 0, 0, 0, 0, 0xf4] 0) = some (.faulted (.outOfBoundsMemory 256), 0xF4, 254) := by decide

/-- T4. -/
theorem test_ret : seen (fun t => (t.reg 2, t.sp, t.pc)) (withCell (machine 0 [0x11, 2] #v[0, 0, 0, 0, 0, 0, 0, 0xf3] 0) 0xF3 5) = some (5, 0xF4, 5) := by decide

/-- T6. -/
theorem test_ret_r7 : seen (fun t => (t.sp, t.pc)) (withCell (machine 0 [0x11, 7] #v[0, 0, 0, 0, 0, 0, 0, 0xf3] 0) 0xF3 0x10) = some (0x11, 0x11) := by decide

/-- T7. -/
theorem test_jmp : seen (fun t => t.pc) (machine 0 [0x54, 3] #v[0, 0, 0, 0x10, 0, 0, 0, 0xf4] 0) = some 0x10 := by decide

/-- T8. -/
theorem test_jeq_taken : seen (fun t => t.pc) (machine 0 [0x55, 3] #v[0, 0, 0, 9, 0, 0, 0, 0xf4] 1) = some 9 := by decide

/-- T10 and T15. -/
theorem test_jeq_passed_at_254 : seen (fun t => t.pc) (machine 254 [0x55, 0] #v[0, 0, 0, 0, 0, 0, 0, 0xf4] 4) = some 256 := by decide

/-- T14. -/
theorem test_jne_taken : seen (fun t => t.pc) (machine 0 [0x56, 3] #v[0, 0, 0, 9, 0, 0, 0, 0xf4] 4) = some 9 := by decide

/-- T13. -/
theorem test_jne_passed : seen (fun t => t.pc) (machine 0 [0x56, 3] #v[0, 0, 0, 9, 0, 0, 0, 0xf4] 1) = some 2 := by decide

/-- Y2. -/
theorem test_fetch_past_memory : seen (fun t => (t.run, t.pc)) (machine 256 [] #v[0, 0, 0, 0, 0, 0, 0, 0xf4] 0) = some (.faulted (.outOfBoundsMemory 256), 256) := by decide

/-- Y10. -/
theorem test_unknown_opcode : seen (fun t => t.run) (machine 0 [0xA1, 0, 1] #v[0, 0, 0, 0, 0, 0, 0, 0xf4] 0) = some (.faulted (.unknownInstruction 0xA1 0)) := by decide

/-- Y8. -/
theorem test_operand_past_memory_first : seen (fun t => t.run) (machine 254 [0xA0, 0] #v[0, 0, 0, 0, 0, 0, 0, 0xf4] 0) = some (.faulted (.outOfBoundsMemory 256)) := by decide

/-- Y7. -/
theorem test_first_bad_register : seen (fun t => t.run) (machine 0 [0xA0, 9, 8] #v[0, 0, 0, 0, 0, 0, 0, 0xf4] 0) = some (.faulted (.outOfBoundsRegister 9)) := by decide

/-! ### Ports -/

/-- L1.1, its first four lines: comments are cut and spaces trimmed (R172). -/
theorem test_parseLine_comment :
    parseLine "10000010 # LDI R0,8".toList = some 0x82 ∧ parseLine "  00001000".toList = some 8 := by decide

/-- Lines without a base-2 integer are skipped (R172). -/
theorem test_parseText_skips :
    parseText ["# a comment".toList, "".toList, "00000001".toList, "12".toList] = [1] := by decide

/-- More values than cells, and a value above 255, are load errors (R172). -/
theorem test_load_errors : loadProgram [1, 256] State.reset = .error (.valueTooLarge 256) ∧
    loadProgram (List.replicate 257 0) State.reset = .error (.tooManyValues 257) :=
  ⟨rfl, by rw [loadProgram, List.length_replicate]; rfl⟩

/-- L1.2: an unknown opcode as the whole program ends in exit code 1 with no output. -/
theorem test_launch_unknown :
    (match launch [0x99] 1 State.reset with
      | .ok t => (exitStatus defaultExitCodes t, t.out)
      | .error _ => (none, [])) = (some 1, []) := by decide

/-- An EXIT_CODE map that tells UnknownInstruction from the other faults. -/
def unknownIsTwo : ExitCodes where
  code := fun k => if k = .unknownInstruction then 2 else 1
  nonzero := fun k => by cases k <;> decide

/-- EXIT_CODE is of F alone: UnknownInstruction with another opcode and address has the same exit code, OutOfBounds(Memory) another (R174). -/
theorem test_exit_code_of_the_fault_alone :
    exitStatus unknownIsTwo { State.reset with run := .faulted (.unknownInstruction 0x99 0) } = some 2 ∧
    exitStatus unknownIsTwo { State.reset with run := .faulted (.unknownInstruction 0x00 7) } = some 2 ∧
    exitStatus unknownIsTwo { State.reset with run := .faulted (.outOfBoundsMemory 256) } = some 1 := by decide

/-- On UnknownInstruction the host is given the opcode and the address, and nothing after HLT (R174). -/
theorem test_faultReport :
    faultReport { State.reset with run := .faulted (.unknownInstruction 0x99 0) } = some (.unknownInstruction 0x99 0) ∧
    faultReport { State.reset with run := .halted } = none := by decide

/-- A trace at 255 shows the two bytes past memory as absent (R175). -/
theorem test_trace_absent :
    (trace (machine 255 [0x47] #v[0, 0, 0, 0, 0, 0, 0, 0xF4] 0)).bytes = #v[some 0x47, none, none] := by decide

/-- The byte 0x48 is the console line 72 (R173). -/
theorem test_console : consoleLines { State.reset with out := [0x48] } = ["72"] := by decide

/-! ### Witnesses: states and operands that meet the hypotheses of the statements -/

/-- A Running machine with bytes from address `pc` on and the reset registers but for SP. -/
def small (pc : Nat) (bytes : List Byte) (sp : Byte) : State :=
  machine pc bytes #v[0, 1, 2, 3, 4, 5, 6, sp] 0

/-- The default opcode map's inverse on well-formed instructions: DecodeOfEncodeIsIdentity. -/
theorem witness_DecodeOfEncodeIsIdentity : (Instr.cmp 7#8 0#8).WellFormed := by decide

/-- DecodedBytesAreAnEncoding and OpcodeByteIsMatchedWhole. -/
theorem witness_DecodedBytesAreAnEncoding :
    decodeWith defaultOpcodes [0x82#8, 7#8, 0xFF#8, 0x01#8] = .ok (.ldi 7#8 0xFF#8, [0x01#8]) := by decide

/-- LengthIsFixedByOpcodeByte. -/
theorem witness_LengthIsFixedByOpcodeByte :
    decodeWith defaultOpcodes [0x69#8, 7#8] = .ok (.not 7#8, []) ∧
    decodeWith defaultOpcodes [0x69#8, 0#8, 1#8, 2#8] = .ok (.not 0#8, [1#8, 2#8]) := by decide

/-- PlacedTableWordIsWhatStepRuns, at the last address a 3-byte instruction has and past it. -/
theorem witness_PlacedTableWordIsWhatStepRuns :
    (small 253 [] 0xF4).mem.wf ∧ (small 254 [] 0xF4).mem.wf ∧
    decodeTableWord 24 0xA00107 = some (.add 1#8 7#8) ∧ 8 * (Instr.add 1#8 7#8).mnemonic.length ≤ 24 := by decide

/-- StepRunsTheDecodedInstruction, at address 255. -/
theorem witness_StepRunsTheDecodedInstruction :
    (small 255 [0x01] 0xF4).run = .running ∧ decode (fetchWindow (small 255 [0x01] 0xF4)) = .ok (.hlt, []) := by decide

/-- StepRunsTheInstructionInMemory, up to the last cell. -/
theorem witness_StepRunsTheInstructionInMemory :
    (small 253 [0xA0, 0, 7] 0xF4).run = .running ∧ (Instr.add 0#8 7#8).WellFormed ∧
    (small 253 [0xA0, 0, 7] 0xF4).pc + (Instr.add 0#8 7#8).mnemonic.length ≤ 256 ∧
    ∀ k b, (encode (.add 0#8 7#8))[k]? = some b → (small 253 [0xA0, 0, 7] 0xF4).mem.read (253 + k) = b := by
  refine ⟨by decide, by decide, by decide, fun k b h => ?_⟩
  match k, h with
  | 0, h => cases h; decide
  | 1, h => cases h; decide
  | 2, h => cases h; decide
  | _ + 3, h => cases h

/-- FaultPriority, first clause, at the first address past memory. -/
theorem witness_FaultPriority_fetch : (small 256 [] 0xF4).run = .running ∧ 255 < (small 256 [] 0xF4).pc := by decide

/-- FaultPriority, second clause, at the last address. -/
theorem witness_FaultPriority_opcode : (small 255 [0xFF] 0xF4).pc ≤ 255 ∧
    ∀ m, defaultOpcode m ≠ (small 255 [0xFF] 0xF4).mem.read (small 255 [0xFF] 0xF4).pc := by
  refine ⟨by decide, fun m => ?_⟩
  cases m <;> decide

/-- FaultPriority, third clause, at 254 with two operands and at 255 with one. -/
theorem witness_FaultPriority_operand :
    ((small 254 [0xA0, 9] 0xF4).pc ≤ 255 ∧ (small 254 [0xA0, 9] 0xF4).mem.read 254 = defaultOpcode .add ∧
      255 < 254 + Mnemonic.add.format.operandCount) ∧
    ((small 255 [0x47] 0xF4).pc ≤ 255 ∧ (small 255 [0x47] 0xF4).mem.read 255 = defaultOpcode .prn ∧
      255 < 255 + Mnemonic.prn.format.operandCount) := by decide

/-- FaultPriority, fourth clause, for CALL at 254 with register byte 8: the register check comes before the return address. -/
theorem witness_FaultPriority_register :
    (small 254 [0x50, 8] 0xF4).pc + (Instr.call 8#8).mnemonic.length ≤ 256 ∧
    (∀ k c, (encode (.call 8#8))[k]? = some c → (small 254 [0x50, 8] 0xF4).mem.read (254 + k) = c) ∧
    (Instr.call 8#8).regOperands = [] ++ 8#8 :: [] ∧ 7 < (8#8).toNat := by
  refine ⟨by decide, fun k b h => ?_, by decide, by decide⟩
  match k, h with
  | 0, h => cases h; decide
  | 1, h => cases h; decide
  | _ + 2, h => cases h

/-- FaultPriority, fifth clause. -/
theorem witness_FaultPriority_call :
    (small 254 [0x50, 7] 0xF4).pc = 254 ∧ (small 254 [0x50, 7] 0xF4).mem.read 254 = 0x50#8 ∧
    (small 254 [0x50, 7] 0xF4).mem.read 255 = regByte 7 := by decide

/-- RegisterOperandAboveSevenFaults, for a second operand after a good first one. -/
theorem witness_RegisterOperandAboveSevenFaults :
    (Instr.add 7#8 8#8).regOperands = [7#8] ++ 8#8 :: [] ∧ (∀ c ∈ [7#8], c.toNat ≤ 7) ∧ 7 < (8#8).toNat := by decide

/-- FaultsArePrecise: a step that ends Faulted. -/
theorem witness_FaultsArePrecise :
    seen (fun t => t.run) (small 0 [] 0xF4) = some (.faulted (.unknownInstruction 0 0)) := by decide

/-- StepIsEnabledExactlyWhenRunning: a Running state and a state that is not. -/
theorem witness_StepIsEnabledExactlyWhenRunning :
    (small 0 [0x01] 0xF4).run = .running ∧ (State.halt State.reset).run ≠ .running := by decide

/-- TerminalStatesAnswerTheirFault. -/
theorem witness_TerminalStatesAnswerTheirFault :
    (State.halt State.reset).run = .halted ∧
    (State.raise State.reset (.outOfBoundsMemory 256)).run = .faulted (.outOfBoundsMemory 256) := by decide

/-- RunStateIsWrittenByHltAndFaultsOnly: a step that halts. -/
theorem witness_RunState : seen (fun t => t.run) (small 0 [0x01] 0xF4) = some .halted := by decide

/-- PcAfterEachInstruction: a Running state in which an instruction answers a next state, without and with a fault. -/
theorem witness_PcAfterEachInstruction :
    (small 0 [] 0xF4).run = .running ∧
    seen (fun t => (t.run, t.pc)) (small 253 [0xA0, 0, 1] 0xF4) = some (.running, 256) ∧
    seen (fun t => (t.run, t.pc)) (small 254 [0x50, 1] 0xF4) = some (.faulted (.outOfBoundsMemory 256), 254) := by decide

/-- EveryStepKeepsTheInvariant: a state with the invariant at the last address, whose step runs. -/
theorem witness_EveryStepKeepsTheInvariant :
    Inv (small 255 [0x01] 0xF4) ∧ seen (fun t => t.pc) (small 255 [0x01] 0xF4) = some 256 := by decide

/-- EveryRunKeepsTheInvariant: a program that loads. -/
theorem witness_EveryRunKeepsTheInvariant :
    (match launch [0x01] 1 State.reset with
      | .ok t => t.run
      | .error _ => .running) = .halted := by decide

/-- MemoryPrimitives, at the last cell and past it, and MemoryHoldsTheLastWrite. -/
theorem witness_MemoryPrimitives : (small 0 [0x45, 0] 0xF4).mem.wf ∧ 255 ≤ 255 ∧ 255 < 256 := by decide

/-- MemoryHoldsTheLastWrite: two writes to the last cell. -/
theorem witness_MemoryHoldsTheLastWrite :
    Memory.wf [(255, 1#8)] ∧ ∀ w ∈ [(255, 1#8), (255, 0#8)], w.1 ≤ 255 := by decide

/-- MemoriesThatReadTheSameAreEqual: a memory and the same one written in another order. -/
theorem witness_MemoriesThatReadTheSameAreEqual :
    Memory.wf ((Memory.write [] 3 1#8).write 255 2#8) ∧ (Memory.write [] 3 1#8).write 255 2#8 =
      (Memory.write [] 255 2#8).write 3 1#8 := by decide

/-- RegisterPrimitives: an ill-formed instruction and the first byte above 7. -/
theorem witness_RegisterPrimitives : ¬ (Instr.jmp 8#8).WellFormed ∧ 7 < (8#8).toNat := by decide

/-- SubtractionByNotAndAdd. -/
theorem witness_SubtractionByNotAndAdd :
    (0 : RegIndex) ≠ 3 ∧ (0 : RegIndex) ≠ 1 ∧ (3 : RegIndex) ≠ 1 ∧ (small 0 [] 0xF4).reg 1 = 0x01#8 := by decide

/-- PushStoresBelowTheStack, PushThenPopRestores (both clauses) and PushedByteIsFetchedNext, with SP at its edges. -/
theorem witness_PushStoresBelowTheStack : (small 0 [0x45, 1] 0x00).mem.wf ∧ (small 0 [0x45, 1] 0x00).sp = 0x00#8 := by decide

/-- PushThenPopRestores: SP next to 0xF5, and SP = 0xF5. -/
theorem witness_PushThenPopRestores :
    (small 0 [] 0xF4).mem.wf ∧ (small 0 [] 0xF4).sp ≠ 0xF5#8 ∧ (1 : RegIndex) ≠ 7 ∧ (small 0 [] 0xF5).sp = 0xF5#8 := by decide

/-- PushedByteIsFetchedNext: P5's PUSH at address 6, and the last address it can have. -/
theorem witness_PushedByteIsFetchedNext :
    ((small 6 [0x45, 1] 9).mem.wf ∧ (small 6 [0x45, 1] 9).run = .running ∧ (small 6 [0x45, 1] 9).pc + 2 ≤ 255 ∧
      ((small 6 [0x45, 1] 9).sp - 1).toNat = (small 6 [0x45, 1] 9).pc + 2 ∧ (1 : RegIndex) ≠ 7 ∧
      (small 6 [0x45, 1] 9).reg 1 = 0x01#8 ∧ (small 6 [0x45, 1] 9).reg 0 = 0x00#8) ∧
    ((small 253 [0x45, 1] 0).pc + 2 ≤ 255 ∧ ((small 253 [0x45, 1] 0).sp - 1).toNat = (small 253 [0x45, 1] 0).pc + 2) := by
  decide

/-- PopLoadsTheTopOfTheStack and RetPopsAndJumps, on both sides of the sentinel. -/
theorem witness_PopLoadsTheTopOfTheStack : (small 0 [] 0xF3).sp ≠ 0xF4#8 ∧ (small 0 [] 0xF5).sp ≠ 0xF4#8 := by decide

/-- EmptyStackIsReportedAndSkipped. -/
theorem witness_EmptyStackIsReportedAndSkipped : (small 0 [] 0xF4).sp = 0xF4#8 := by decide

/-- CallPushesTheReturnAddress, at the last address it can have and at the first it cannot. -/
theorem witness_CallPushesTheReturnAddress :
    (small 253 [] 0xF4).mem.wf ∧ (small 253 [] 0xF4).pc + 2 ≤ 255 ∧ 255 < (small 254 [] 0xF4).pc + 2 := by decide

/-- RetResumesAfterItsCall: the state right after the CALL is one from which the RET resumes. -/
theorem witness_RetResumesAfterItsCall :
    (small 253 [] 0xF4).mem.wf ∧ (small 253 [] 0xF4).pc + 2 ≤ 255 ∧ (small 253 [] 0xF4).sp ≠ 0xF5#8 ∧ (2 : RegIndex) ≠ 7 ∧
    ∃ t, exec (.call (regByte 1)) (small 253 [] 0xF4) = .next t := by
  refine ⟨by decide, by decide, by decide, by decide, ?_⟩
  obtain ⟨t, ht⟩ := effect_total (small 253 [] 0xF4) (.call (regByte 1))
  exact ⟨t, exec_of_effect ht⟩

/-- OnlyCmpWritesFlags, RegistersEachInstructionWrites, OnlyPushAndCallWriteMemory and StreamsGrowAndAreNeverRead: every instruction answers
a next state in every state. -/
theorem witness_exec_answers (i : Instr) (s : State) : ∃ t, exec i s = .next t := by
  obtain ⟨t, ht⟩ := effect_total s i
  exact ⟨t, exec_of_effect ht⟩

/-- OnlyEqualFlagIsRead: two flags bytes that agree in E alone, before a JNE. -/
theorem witness_OnlyEqualFlagIsRead :
    (0x06#8).getLsbD 0 = (machine 0 [0x56, 3] #v[0, 0, 0, 9, 0, 0, 0, 0xF4] 0xF8).fl.getLsbD 0 ∧
    seen (fun t => t.pc) (machine 0 [0x56, 3] #v[0, 0, 0, 9, 0, 0, 0, 0xF4] 0xF8) = some 9 := by decide

/-- StepReadsOnlyFetchedCellsAndStackTop: a memory that differs in another cell. -/
theorem witness_StepReadsOnlyFetchedCellsAndStackTop :
    (small 0 [0x46, 1] 0xF3).mem.wf ∧ ((small 0 [0x46, 1] 0xF3).mem.write 9 9).wf ∧
    (∀ a, a = 0 ∨ a = 1 ∨ a = 2 ∨ a = 0xF3 →
      ((small 0 [0x46, 1] 0xF3).mem.write 9 9).read a = (small 0 [0x46, 1] 0xF3).mem.read a) ∧
    seen (fun t => t.sp) (small 0 [0x46, 1] 0xF3) = some 0xF4 := by
  refine ⟨by decide, by decide, ?_, by decide⟩
  rintro a (rfl | rfl | rfl | rfl) <;> decide

/-- LoadWritesTheProgramFromZero: a program that loads, a value too large, and a program one value too long. -/
theorem witness_LoadWritesTheProgramFromZero :
    State.reset.mem.wf ∧ (∀ v ∈ [0x82, 255], v ≤ 255) ∧ 256 < (List.replicate 257 0).length ∧ (∃ v ∈ [1, 256], 255 < v) := by
  rw [List.length_replicate]
  decide

/-- LoopStaysInTerminalStates: a loop that has stopped. -/
theorem witness_LoopStaysInTerminalStates : (runLoop 1 (small 0 [0x01] 0xF4)).run ≠ .running := by decide

end Sys2Proof.Tests
end

section
/-! PROOFS. The primitives of 00_scope.md R10 to R12. -/

namespace Sys2Proof.Machine

/-! ### Memory (R11) -/

/-- A write into 0..255 gives its own cell the byte and leaves everything else of the state alone. -/
theorem memWrite_in_range (s : State) {a : Nat} (v : Byte) (hs : s.mem.wf) (ha : a ≤ 255) :
    ∃ t, s.memWrite a v = .ok t ∧ t.mem.read a = v ∧ (∀ b, b ≠ a → t.mem.read b = s.mem.read b) ∧
      t.mem.wf ∧ t.regs = s.regs ∧ t.fl = s.fl ∧ t.pc = s.pc ∧ SameRunAndStreams s t := by
  have hw := memWrite_of_lt s (Nat.lt_succ_of_le ha) v
  exact ⟨_, hw, Memory.read_write_same hs a v, fun _ hb => Memory.read_write_other s.mem v hb,
    memWrite_keeps_wf hs hw, rfl, rfl, rfl, rfl, rfl, rfl⟩

/-- An instruction that ends in a write outside 0..255 changes the run state alone. -/
theorem pcSequencer_memWrite_out_of_range (len : Nat) (s : State) {a : Nat} (v : Byte) (ha : 255 < a) :
    pcSequencer len s (s.memWrite a v >>= fun t => .ok (t, .next)) = .next (s.raise (.outOfBoundsMemory a)) := by
  rw [memWrite_of_ge s ha, except_error_bind, pcSequencer_error]

/-- Settles O21: inside 0..255 by the rules of reads and writes, outside by the fault both primitives raise. -/
theorem memoryPrimitives : Obligations.MemoryPrimitives := fun s _ v hs =>
  ⟨fun ha => memRead_of_lt s (Nat.lt_succ_of_le ha), memWrite_in_range s v hs, fun ha =>
    ⟨memRead_of_ge s ha, memWrite_of_ge s ha v, fun len => pcSequencer_memWrite_out_of_range len s v ha⟩⟩

/-! ### Registers (R10) -/

/-- A register write leaves every other register alone. -/
theorem sameRegsExcept_setReg (s : State) (i : RegIndex) (v : Int) : SameRegsExcept [i] s (s.setReg i v) :=
  fun _ hk => State.reg_setReg_other s v (List.ne_of_not_mem_cons hk)

/-- An instruction that is not well formed has a first register operand above 7 (40_cycle.md R86). -/
theorem exists_badRegister {i : Instr} (h : ¬ i.WellFormed) : ∃ b, i.badRegister = some b :=
  Option.ne_none_iff_exists'.1 fun hn => h (badRegister_eq_none.1 hn)

/-- Executing an instruction that is not well formed raises OutOfBounds(Register) for some index. -/
theorem exec_of_not_wellFormed {i : Instr} (s : State) (h : ¬ i.WellFormed) :
    ∃ n, exec i s = .next (s.raise (.outOfBoundsRegister n)) := by
  obtain ⟨b, hb⟩ := exists_badRegister h
  exact ⟨b.toNat, exec_of_badRegister s hb⟩

/-- Settles O24: the register write by reading it back and by its frame, the index check by the operand byte's range, and the fault of an
ill-formed instruction from its first register operand above 7. -/
theorem registerPrimitives : Obligations.RegisterPrimitives := by
  refine ⟨fun s i v => ⟨?_, sameRegsExcept_setReg s i v, rfl, rfl, rfl, rfl, rfl, rfl⟩, State.sp_eq_reg, fun _ _ => rfl,
    regIndex_regByte, fun _ => regIndex_of_big, fun _ => exec_of_not_wellFormed⟩
  rw [State.reg_setReg_same, truncate_toNat_eq]

/-! ### Ends of a step, streams and the PC (R12) -/

/-- Settles O25: each primitive updates one field, and the PC sequencer ends in `raise`, `jump` or `advance`. -/
theorem stepPrimitives : Obligations.StepPrimitives := fun s =>
  ⟨fun _ => rfl, fun f len => pcSequencer_error len s f, fun _ => rfl, fun _ => rfl, fun _ => rfl, fun _ => rfl,
    fun u target len => pcSequencer_jump len s u target, fun u len => pcSequencer_next len s u, rfl⟩

end Sys2Proof.Machine
end

section
/-! PROOFS. Why bytes are refused by the decoder, and why a fetch faults (60_exceptions.md R150, R155). -/

namespace Sys2Proof

/-- The register check refuses for an operand byte above 7 alone. -/
theorem checkRegisters_error {i : Instr} {rest : List Byte} {e : DecodeError} (h : checkRegisters i rest = .error e) :
    ∃ b, e = .badRegister b ∧ 7 < b.toNat := by
  unfold checkRegisters at h
  cases hb : i.badRegister with
  | none => simp [hb] at h
  | some b =>
    obtain rfl : DecodeError.badRegister b = e := by simpa [hb] using h
    exact ⟨b, rfl, by simpa using List.find?_some hb⟩

/-- Why operand bytes are refused: the byte right after the ones there are is missing, or an operand byte is above 7. -/
def OperandsRefused (bytes : List Byte) (e : DecodeError) : Prop :=
  (e = .missingByte (bytes.length + 1) ∧ bytes.length < 2) ∨ ∃ b, e = .badRegister b ∧ 7 < b.toNat

theorem takeOne_error {c : Byte → Instr} {bytes : List Byte} {e : DecodeError} (h : takeOne c bytes = .error e) :
    OperandsRefused bytes e := by
  match bytes with
  | [] => exact .inl ⟨(Except.error.inj h).symm, by decide⟩
  | _ :: _ => exact .inr (checkRegisters_error h)

theorem takeTwo_error {c : Byte → Byte → Instr} {bytes : List Byte} {e : DecodeError} (h : takeTwo c bytes = .error e) :
    OperandsRefused bytes e := by
  match bytes with
  | [] => exact .inl ⟨(Except.error.inj h).symm, by decide⟩
  | [_] => exact .inl ⟨(Except.error.inj h).symm, by simp⟩
  | _ :: _ :: _ => exact .inr (checkRegisters_error h)

theorem takeOperands_error {m : Mnemonic} {bytes : List Byte} {e : DecodeError} (h : takeOperands m bytes = .error e) :
    OperandsRefused bytes e := by
  cases m with
  | hlt => cases h
  | ldi | mul | add | and | or | xor | shl | cmp => exact takeTwo_error h
  | prn | not | push | pop | call | ret | jmp | jeq | jne => exact takeOne_error h

/-- Why the decoder refuses bytes: the byte right after them is missing, the first is no opcode byte, or an operand byte is above 7. -/
theorem decodeWith_error {opc : Config.OpcodeMap} {bytes : List Byte} {e : DecodeError}
    (h : decodeWith opc bytes = .error e) :
    (e = .missingByte bytes.length ∧ bytes.length ≤ 2) ∨
      (∃ op, e = .unknownOpcode op ∧ bytes.head? = some op ∧ lookup opc op = none) ∨
      ∃ b, e = .badRegister b ∧ 7 < b.toNat := by
  match bytes with
  | [] => exact .inl ⟨(Except.error.inj h).symm, by decide⟩
  | op :: rest =>
    rw [decodeWith] at h
    split at h
    · exact .inr (.inl ⟨op, (Except.error.inj h).symm, rfl, ‹_›⟩)
    · rcases takeOperands_error h with ⟨rfl, hl⟩ | hb
      · exact .inl ⟨rfl, hl⟩
      · exact .inr (.inr hb)

/-- The bytes of a well-formed instruction decode to it. -/
theorem decodeWith_encodeWith (opc : Config.OpcodeMap) {i : Instr} (h : i.WellFormed) (rest : List Byte) :
    decodeWith opc (encodeWith opc i ++ rest) = .ok (i, rest) := by
  simp only [encodeWith, List.cons_append, decodeWith, lookup_byte]
  exact takeOperands_eq_ok.2 ⟨rfl, h, rfl⟩

end Sys2Proof

namespace Sys2Proof.Machine

/-- A window of fewer than three bytes ends at the last cell. -/
theorem fetchWindow_length_of_short {s : State} (hp : s.pc ≤ 256) (h : (fetchWindow s).length ≤ 2) :
    s.pc + (fetchWindow s).length = 256 := by
  rcases Nat.lt_or_ge (s.pc + 2) 256 with h3 | h3
  · simp [fetchWindow_three h3] at h
  · rcases (show s.pc = 254 ∨ s.pc = 255 ∨ s.pc = 256 by omega) with hp | hp | hp
    · rw [fetchWindow_two hp, hp]; rfl
    · rw [fetchWindow_one hp, hp]; rfl
    · rw [fetchWindow_none hp.ge, hp]; rfl

/-- A window's first byte stands at the PC. -/
theorem read_pc_of_fetchWindow_head? {s : State} {op : Byte} (h : (fetchWindow s).head? = some op) :
    s.mem.read s.pc = op := by
  rcases Nat.lt_or_ge s.pc 256 with hp | hp
  · obtain ⟨rest, hw⟩ := fetchWindow_head hp
    simpa [hw] using h
  · simp [fetchWindow_none hp] at h

/-- Why a fetch faults: at address 256 for want of a byte, on an opcode byte in no row of the table, or on a register index above 7. -/
theorem fetch_error {opc : Config.OpcodeMap} {s : State} {f : FaultRecord} (hp : s.pc ≤ 256)
    (h : fetch opc s = .error f) :
    f = .outOfBoundsMemory 256 ∨
      (f = .unknownInstruction (s.mem.read s.pc) s.pc ∧ lookup opc (s.mem.read s.pc) = none) ∨
      ∃ b : Byte, f = .outOfBoundsRegister b.toNat ∧ 7 < b.toNat := by
  unfold fetch at h
  split at h
  · cases h
  · cases h
    rcases decodeWith_error ‹_› with ⟨rfl, hl⟩ | ⟨op, rfl, hop, hl⟩ | ⟨b, rfl, hb⟩
    · rw [decodeFault, fetchWindow_length_of_short hp hl]
      exact .inl rfl
    · obtain rfl := read_pc_of_fetchWindow_head? hop
      exact .inr (.inl ⟨rfl, hl⟩)
    · exact .inr (.inr ⟨b, rfl, hb⟩)

end Sys2Proof.Machine
end

section
/-! PROOFS. What an instruction can do to FL, to the run state, to memory and to the PC: field by field, from its effect. -/

namespace Sys2Proof.Machine

/-- FL after an instruction: the comparison's flags after CMP, and untouched otherwise (10_state.md R28). -/
theorem effect_fl {s t : State} {i : Instr} (h : Effect s i t) :
    t.fl = s.fl ∨ ∃ a b, i = .cmp (regByte a) (regByte b) ∧ t.fl = compareFlags (s.reg a) (s.reg b) := by
  cases h with
  | cmp a b => exact .inr ⟨a, b, rfl, rfl⟩
  | _ => exact .inl rfl

/-- The run state after an instruction: untouched, Halted after HLT, or one of the two faults an instruction can raise, which change
nothing else (10_state.md R30). -/
theorem effect_run {s t : State} {i : Instr} (h : Effect s i t) :
    t.run = s.run ∨ (i = .hlt ∧ t.run = .halted) ∨
      (∃ b, i.badRegister = some b ∧ t = s.raise (.outOfBoundsRegister b.toNat)) ∨
      ((∃ r, i = .call r) ∧ 256 ≤ s.pc + 2 ∧ t = s.raise (.outOfBoundsMemory (s.pc + 2))) := by
  cases h with
  | badRegister _ b h => exact .inr (.inr (.inl ⟨b, h, rfl⟩))
  | hlt => exact .inr (.inl ⟨rfl, rfl⟩)
  | callFault r h => exact .inr (.inr (.inr ⟨⟨_, rfl⟩, h, rfl⟩))
  | _ => exact .inl rfl

/-- Memory after an instruction: one byte written below SP, or untouched (20_memory.md R41). -/
theorem effect_mem {s t : State} {i : Instr} (h : Effect s i t) :
    t.mem = s.mem ∨ ((∃ r, i = .push r ∨ i = .call r) ∧ ∃ v, t.mem = s.mem.write (s.sp - 1).toNat v) := by
  cases h with
  | push r => exact .inr ⟨⟨_, .inl rfl⟩, _, rfl⟩
  | call r h => exact .inr ⟨⟨_, .inr rfl⟩, _, rfl⟩
  | _ => exact .inl rfl

/-- An instruction keeps the canonical form of memory. -/
theorem effect_keeps_wf {s t : State} {i : Instr} (hs : s.mem.wf) (h : Effect s i t) : t.mem.wf := by
  rcases effect_mem h with hm | ⟨-, v, hm⟩
  · rwa [hm]
  · rw [hm]; exact Memory.wf_write hs (s.sp - 1).isLt v

/-- An instruction leaves the PC, advances it by its length, or sets it to a byte (10_state.md R25). -/
theorem effect_pc {s t : State} {i : Instr} (h : Effect s i t) :
    t.pc = s.pc ∨ t.pc = s.pc + i.mnemonic.length ∨ ∃ v : Byte, t.pc = v.toNat := by
  cases h with
  | badRegister | callFault => exact .inl rfl
  | hlt | ldi | prn | cmp | push | popEmpty | pop | jeqPassed | jnePassed => exact .inr (.inl rfl)
  | alu _ a v len h => exact .inr (.inl (by rw [State.advance_pc, State.setReg_pc, aluEffect_length h]))
  | call | retEmpty | ret | jmp | jeqTaken | jneTaken => exact .inr (.inr ⟨_, rfl⟩)

/-- An instruction keeps FL legal (10_state.md R27). -/
theorem effect_keeps_legalFlags {s t : State} {i : Instr} (hs : LegalFlags s.fl) (h : Effect s i t) :
    LegalFlags t.fl := by
  rcases effect_fl h with hf | ⟨a, b, -, hf⟩
  · rwa [hf]
  · rw [hf]; exact .inr (compareFlags_cases _ _)

end Sys2Proof.Machine
end

section
/-! PROOFS. The invariant (decisions D4, D5): every step keeps it, and reset meets it. -/

namespace Sys2Proof.Machine

theorem faultJustified_of_safe {s : State} (h : Safe s) : faultJustified s = true := by
  unfold faultJustified
  cases hr : s.run with
  | running | halted => rfl
  | faulted f => exact absurd hr (h f)

theorem faultJustified_raise_memory (s : State) : faultJustified (s.raise (.outOfBoundsMemory 256)) = true := rfl

theorem faultJustified_raise_register (s : State) {b : Byte} (h : 7 < b.toNat) :
    faultJustified (s.raise (.outOfBoundsRegister b.toNat)) = true := by
  have hb := b.isLt
  simp only [faultJustified, State.raise_run, Bool.and_eq_true, decide_eq_true_eq]
  omega

theorem faultJustified_raise_unknown {s : State} (h : lookup defaultOpcodes (s.mem.read s.pc) = none) :
    faultJustified (s.raise (.unknownInstruction (s.mem.read s.pc) s.pc)) = true := by
  simp [faultJustified, h]

/-- The fault of a fetch is justified. -/
theorem faultJustified_of_fetch_error {s : State} {f : FaultRecord} (hp : s.pc ≤ 256)
    (h : fetch defaultOpcodes s = .error f) : faultJustified (s.raise f) = true := by
  rcases fetch_error hp h with rfl | ⟨rfl, hl⟩ | ⟨b, rfl, hb⟩
  · exact faultJustified_raise_memory s
  · exact faultJustified_raise_unknown hl
  · exact faultJustified_raise_register s hb

/-- The fault of a fetched instruction can only be CALL's at 254, and it is justified. -/
theorem faultJustified_of_fetched {s t : State} {i : Instr} (hr : s.run = .running)
    (hf : fetch defaultOpcodes s = .ok i) (h : Effect s i t) : faultJustified t = true := by
  obtain ⟨hw, -⟩ := fetch_ok hf
  rcases effect_run h with ht | ⟨-, ht⟩ | ⟨b, hb, -⟩ | ⟨⟨r, rfl⟩, hge, rfl⟩
  · exact faultJustified_of_safe fun f => by simp [ht, hr]
  · exact faultJustified_of_safe fun f => by simp [ht]
  · exact absurd hb (by simp [badRegister_eq_none.2 hw])
  · have hle : s.pc + 2 ≤ 256 := fetch_length hf
    rw [Nat.le_antisymm hle hge]
    exact faultJustified_raise_memory s

/-- A fetched instruction leaves the PC within 0..256 (log entry 6). -/
theorem pc_le_of_fetched {opc : Config.OpcodeMap} {s t : State} {i : Instr} (hp : s.pc ≤ 256)
    (hf : fetch opc s = .ok i) (h : Effect s i t) : t.pc ≤ 256 := by
  have hl := fetch_length hf
  rcases effect_pc h with ht | ht | ⟨v, ht⟩
  · rwa [ht]
  · rwa [ht]
  · rw [ht]; exact v.isLt.le

/-- Settles O17, field by field: a fetched instruction by what its effect does to each field, a fault of the fetch by its record alone. -/
theorem everyStepKeepsTheInvariant : Obligations.EveryStepKeepsTheInvariant := by
  rintro s t ⟨hm, hp, hfl, -⟩ h
  obtain ⟨hr, ⟨i, hf, he⟩ | ⟨f, hf, rfl⟩⟩ := stepWith_cases h
  · exact ⟨effect_keeps_wf hm he, pc_le_of_fetched hp hf he, effect_keeps_legalFlags hfl he,
      faultJustified_of_fetched hr hf he⟩
  · exact ⟨hm, hp, hfl, faultJustified_of_fetch_error hp hf⟩

/-- Settles O18: the reset memory is the empty list, and the other three fields are constants. -/
theorem resetMeetsTheInvariant : Obligations.ResetMeetsTheInvariant :=
  ⟨reset_mem_wf, Nat.zero_le _, .inl rfl, rfl⟩

end Sys2Proof.Machine
end

section
/-! PROOFS. What a step reads, said once: an instruction makes the same change in two states that agree on what it can read. -/

namespace Sys2Proof.Machine

/-- Two states that agree on everything an instruction can read: the registers, the PC, E and the cell at SP. -/
structure AgreeOnReads (s s' : State) : Prop where
  regs : s'.regs = s.regs
  pc : s'.pc = s.pc
  flagE : s'.flagE = s.flagE
  top : s'.mem.read s.sp.toNat = s.mem.read s.sp.toNat

/-- From `s` to `t` and from `s'` to `t'` the same change is made: the same registers and PC are left; FL and the run state end the same
or both untouched; each stream grows by the same entries; memory has the same one write or none. -/
structure SameChange (s t s' t' : State) : Prop where
  regs : t'.regs = t.regs
  pc : t'.pc = t.pc
  fl : t'.fl = t.fl ∨ (t.fl = s.fl ∧ t'.fl = s'.fl)
  run : t'.run = t.run ∨ (t.run = s.run ∧ t'.run = s'.run)
  out : ∃ o, t.out = s.out ++ o ∧ t'.out = s'.out ++ o
  diag : ∃ d, t.diag = s.diag ++ d ∧ t'.diag = s'.diag ++ d
  mem : (t.mem = s.mem ∧ t'.mem = s'.mem) ∨ ∃ a v, t.mem = s.mem.write a v ∧ t'.mem = s'.mem.write a v

namespace SameChange

/-! Every primitive carries the same change on. -/

variable {s t s' t' : State} (h : SameChange s t s' t')
include h

theorem reg_eq (k : RegIndex) : t'.reg k = t.reg k := State.reg_congr h.regs k

theorem sp_eq : t'.sp = t.sp := h.reg_eq 7

theorem setReg (i : RegIndex) (v : Int) : SameChange s (t.setReg i v) s' (t'.setReg i v) :=
  { h with regs := by rw [State.setReg, State.setReg, h.regs] }

theorem setFlags (v : Byte) : SameChange s (t.setFlags v) s' (t'.setFlags v) :=
  { h with fl := .inl rfl }

theorem advance (n : Nat) : SameChange s (t.advance n) s' (t'.advance n) :=
  { h with pc := by rw [State.advance_pc, State.advance_pc, h.pc] }

theorem jump (v : Byte) : SameChange s (t.jump v) s' (t'.jump v) :=
  { h with pc := rfl }

theorem halt : SameChange s t.halt s' t'.halt :=
  { h with run := .inl rfl }

theorem raise (f : FaultRecord) : SameChange s (t.raise f) s' (t'.raise f) :=
  { h with run := .inl rfl }

/-! A field on which the two states agreed, they still agree on. -/

theorem fl_eq (hs : s'.fl = s.fl) : t'.fl = t.fl := by
  rcases h.fl with he | ⟨ht, ht'⟩
  · exact he
  · rw [ht, ht', hs]

theorem run_eq (hs : s'.run = s.run) : t'.run = t.run := by
  rcases h.run with he | ⟨ht, ht'⟩
  · exact he
  · rw [ht, ht', hs]

theorem out_eq (hs : s'.out = s.out) : t'.out = t.out := by
  obtain ⟨o, ht, ht'⟩ := h.out
  rw [ht, ht', hs]

theorem diag_eq (hs : s'.diag = s.diag) : t'.diag = t.diag := by
  obtain ⟨d, ht, ht'⟩ := h.diag
  rw [ht, ht', hs]

theorem mem_eq (hs : s'.mem = s.mem) : t'.mem = t.mem := by
  rcases h.mem with ⟨ht, ht'⟩ | ⟨a, v, ht, ht'⟩ <;> rw [ht, ht', hs]

/-- A cell on which two canonical memories agreed, they still agree on. -/
theorem read_eq (hm : s.mem.wf) (hm' : s'.mem.wf) {a : Nat} (ha : s'.mem.read a = s.mem.read a) :
    t'.mem.read a = t.mem.read a := by
  rcases h.mem with ⟨ht, ht'⟩ | ⟨b, v, ht, ht'⟩
  · rw [ht, ht', ha]
  · rw [ht, ht']
    by_cases hab : a = b
    · rw [hab, Memory.read_write_same hm, Memory.read_write_same hm']
    · rw [Memory.read_write_other _ _ hab, Memory.read_write_other _ _ hab, ha]

end SameChange

namespace AgreeOnReads

/-! What is written from a value read is the same change too. -/

variable {s s' : State} (h : AgreeOnReads s s')
include h

theorem reg_eq (k : RegIndex) : s'.reg k = s.reg k := State.reg_congr h.regs k

theorem sp_eq : s'.sp = s.sp := h.reg_eq 7

/-- Doing nothing is the same change. -/
theorem unchanged : SameChange s s s' s' where
  regs := h.regs
  pc := h.pc
  fl := .inr ⟨rfl, rfl⟩
  run := .inr ⟨rfl, rfl⟩
  out := ⟨[], by simp⟩
  diag := ⟨[], by simp⟩
  mem := .inl ⟨rfl, rfl⟩

theorem emit (r : RegIndex) : SameChange s (s.emit (s.reg r)) s' (s'.emit (s'.reg r)) :=
  { h.unchanged with out := ⟨[s.reg r], rfl, by rw [State.emit_out, h.reg_eq]⟩ }

theorem report (r : RegIndex) :
    SameChange s (s.report (.emptyStack s.pc r)) s' (s'.report (.emptyStack s'.pc r)) :=
  { h.unchanged with diag := ⟨[.emptyStack s.pc r], rfl, by rw [State.report_diag, h.pc]⟩ }

theorem lowered_regs : (lowered s').regs = (lowered s).regs := by
  rw [lowered, lowered, h.sp_eq]
  exact (h.unchanged.setReg _ _).regs

theorem lowered_reg_eq (r : RegIndex) : (lowered s').reg r = (lowered s).reg r := State.reg_congr h.lowered_regs r

/-- A push of the same byte writes the same cell. -/
theorem pushed (v : Byte) : SameChange s (pushed s v) s' (pushed s' v) :=
  { h.unchanged with
    regs := h.lowered_regs
    mem := .inr ⟨_, v, rfl, by rw [pushed_mem, h.sp_eq]⟩ }

/-- A pop reads the one cell at SP. -/
theorem popped (i : RegIndex) : SameChange s (popped s i) s' (popped s' i) := by
  have hv := h.unchanged.setReg i (s.mem.read s.sp.toNat).toNat
  rw [Machine.popped, Machine.popped, h.sp_eq, h.top, hv.sp_eq]
  exact hv.setReg _ _

end AgreeOnReads

/-- An instruction has the same effect in two states that agree on what it can read. -/
theorem effect_of_agree {s s' t : State} {i : Instr} (h : AgreeOnReads s s') (he : Effect s i t) :
    ∃ t', Effect s' i t' ∧ SameChange s t s' t' := by
  cases he with
  | badRegister _ b hb => exact ⟨_, .badRegister i b hb, h.unchanged.raise _⟩
  | hlt => exact ⟨_, .hlt, h.unchanged.halt.advance 1⟩
  | ldi r imm => exact ⟨_, .ldi r imm, (h.unchanged.setReg r _).advance 3⟩
  | prn r => exact ⟨_, .prn r, (h.emit r).advance 2⟩
  | alu _ a v len ha => exact ⟨_, .alu i a v len (aluEffect_congr ha h.regs), (h.unchanged.setReg a _).advance len⟩
  | cmp a b =>
    refine ⟨_, .cmp a b, ?_⟩
    rw [h.reg_eq, h.reg_eq]
    exact (h.unchanged.setFlags _).advance 3
  | push r =>
    refine ⟨_, .push r, ?_⟩
    rw [h.lowered_reg_eq]
    exact (h.pushed _).advance 2
  | popEmpty r hsp => exact ⟨_, .popEmpty r (h.sp_eq.trans hsp), (h.report r).advance 2⟩
  | pop r hsp => exact ⟨_, .pop r (h.sp_eq ▸ hsp), (h.popped r).advance 2⟩
  | callFault r hpc =>
    refine ⟨_, .callFault r (h.pc ▸ hpc), ?_⟩
    rw [h.pc]
    exact h.unchanged.raise _
  | call r hpc =>
    refine ⟨_, .call r (h.pc ▸ hpc), ?_⟩
    rw [h.pc, (h.pushed _).reg_eq]
    exact (h.pushed _).jump _
  | retEmpty r hsp =>
    refine ⟨_, .retEmpty r (h.sp_eq.trans hsp), ?_⟩
    rw [h.reg_eq]
    exact (h.report r).jump _
  | ret r hsp =>
    refine ⟨_, .ret r (h.sp_eq ▸ hsp), ?_⟩
    rw [(h.popped r).reg_eq]
    exact (h.popped r).jump _
  | jmp r => exact ⟨_, .jmp r, by rw [h.reg_eq]; exact h.unchanged.jump _⟩
  | jeqTaken r hE => exact ⟨_, .jeqTaken r (h.flagE.trans hE), by rw [h.reg_eq]; exact h.unchanged.jump _⟩
  | jeqPassed r hE => exact ⟨_, .jeqPassed r (h.flagE.trans hE), h.unchanged.advance 2⟩
  | jneTaken r hE => exact ⟨_, .jneTaken r (h.flagE.trans hE), by rw [h.reg_eq]; exact h.unchanged.jump _⟩
  | jnePassed r hE => exact ⟨_, .jnePassed r (h.flagE.trans hE), h.unchanged.advance 2⟩

/-- Two states that also agree on the cells at pc, pc+1 and pc+2: everything a fetch can read. -/
structure AgreeOnFetch (s s' : State) : Prop extends AgreeOnReads s s' where
  run : s'.run = s.run
  window : ∀ k < maxLength, s'.mem.read (s.pc + k) = s.mem.read (s.pc + k)

/-- Cells that read alike are read alike, in range and out of it. -/
theorem memRead_congr {s s' : State} {a : Nat} (h : s'.mem.read a = s.mem.read a) : s'.memRead a = s.memRead a := by
  simp only [State.memRead, h]

theorem fetch_of_agree (opc : Config.OpcodeMap) {s s' : State} (h : AgreeOnFetch s s') :
    fetch opc s' = fetch opc s := by
  have hw : fetchWindow s' = fetchWindow s :=
    List.filterMap_congr fun k hk => by rw [h.pc, memRead_congr (h.window k (List.mem_range.1 hk))]
  rw [fetch, fetch, hw, h.pc]

/-- A step makes the same change in two states that agree on what it can read (20_memory.md R41, 10_state.md R32). -/
theorem stepWith_of_agree {opc : Config.OpcodeMap} {s s' t : State} (h : AgreeOnFetch s s')
    (hst : stepWith opc s = .next t) : ∃ t', stepWith opc s' = .next t' ∧ SameChange s t s' t' := by
  obtain ⟨hr, hc⟩ := stepWith_cases hst
  rw [stepWith_running opc (h.run.trans hr), fetch_of_agree opc h]
  rcases hc with ⟨i, hf, he⟩ | ⟨f, hf, rfl⟩
  · obtain ⟨t', he', hsame⟩ := effect_of_agree h.toAgreeOnReads he
    exact ⟨t', by rw [hf]; exact exec_of_effect he', hsame⟩
  · exact ⟨s'.raise f, by rw [hf], h.unchanged.raise f⟩

/-- States are equal if their seven fields are. -/
theorem State.eq_of_fields {s t : State} (hm : s.mem = t.mem) (hx : s.regs = t.regs) (hf : s.fl = t.fl) (hp : s.pc = t.pc)
    (hr : s.run = t.run) (ho : s.out = t.out) (hd : s.diag = t.diag) : s = t := by
  cases s; cases t; congr

end Sys2Proof.Machine
end

section
/-! PROOFS. Who reads and who writes FL, and which cells a step reads (10_state.md R28, R32; 20_memory.md R41). -/

namespace Sys2Proof.Machine

/-- Settles O45: of all effects, CMP's alone has another flags byte. -/
theorem onlyCmpWritesFlags : Obligations.OnlyCmpWritesFlags := by
  intro i s t h
  exact (effect_fl (exec_eq_next_iff.1 h)).imp_right fun ⟨a, b, hi, _⟩ => ⟨_, _, hi⟩

/-- Settles O46: a step reads no more of FL than E, so with another flags byte it makes the same change. -/
theorem onlyEqualFlagIsRead : Obligations.OnlyEqualFlagIsRead := by
  intro s t f hE h
  have hagree : AgreeOnFetch s { s with fl := f } := ⟨⟨rfl, rfl, hE, rfl⟩, rfl, fun _ _ => rfl⟩
  obtain ⟨u, hu, hsame⟩ := stepWith_of_agree hagree h
  have hmem := hsame.mem_eq rfl
  have hrun := hsame.run_eq rfl
  have hout := hsame.out_eq rfl
  have hdiag := hsame.diag_eq rfl
  rcases hsame.fl with hfl | ⟨hfl, hfl'⟩
  · obtain rfl : u = t := State.eq_of_fields hmem hsame.regs hfl hsame.pc hrun hout hdiag
    exact .inl hu
  · obtain rfl : u = { t with fl := f } := State.eq_of_fields hmem hsame.regs hfl' hsame.pc hrun hout hdiag
    exact .inr ⟨hfl, hu⟩

/-- Settles O50: with the four cells agreed on, a step makes the same change, and the same write keeps agreed cells agreed. -/
theorem stepReadsOnlyFetchedCellsAndStackTop : Obligations.StepReadsOnlyFetchedCellsAndStackTop := by
  intro s t m hs hm hcells h
  have hwindow : ∀ k < maxLength, m.read (s.pc + k) = s.mem.read (s.pc + k) := fun k hk =>
    hcells _ (by have : k < 3 := hk; omega)
  have hagree : AgreeOnFetch s { s with mem := m } := ⟨⟨rfl, rfl, rfl, hcells _ (by simp)⟩, rfl, hwindow⟩
  obtain ⟨u, hu, hsame⟩ := stepWith_of_agree hagree h
  have hu' : u = { t with mem := u.mem } := State.eq_of_fields rfl hsame.regs (hsame.fl_eq rfl) hsame.pc
    (hsame.run_eq rfl) (hsame.out_eq rfl) (hsame.diag_eq rfl)
  exact ⟨u.mem, hu.trans (congrArg _ hu'), fun a ha => hsame.read_eq hs hm ha⟩

end Sys2Proof.Machine
end

section
/-! PROOFS. The step and the run state (10_state.md R30, 40_cycle.md R90). -/

namespace Sys2Proof.Machine

/-- A step of a Running machine whose window decodes runs the instruction it decodes to. -/
theorem step_of_decode_ok {s : State} (hr : s.run = .running) {i : Instr} {rest : List Byte}
    (h : decode (fetchWindow s) = .ok (i, rest)) : step s = exec i s := by
  rw [decode] at h
  rw [step, stepWith_running _ hr, fetch, h]

/-- Settles O9: the window starts with the instruction's bytes, and they decode to it. -/
theorem stepRunsTheInstructionInMemory : Obligations.StepRunsTheInstructionInMemory := by
  intro s i hr hw hp hbytes
  have hlen : (encode i).length = i.mnemonic.length := encodeWith_length defaultOpcodes i
  obtain ⟨rest, hwin⟩ := fetchWindow_of_bytes (hlen ▸ (mnemonic_length_bounds _).2) (hlen ▸ hp) hbytes
  exact step_of_decode_ok hr (hwin ▸ decodeWith_encodeWith defaultOpcodes hw rest)

/-- A step that ends Halted ran HLT. -/
theorem decode_hlt_of_step_halted {s t : State} (h : step s = .next t) (ht : t.run = .halted) :
    ∃ rest, decode (fetchWindow s) = .ok (.hlt, rest) := by
  obtain ⟨hr, ⟨i, hf, he⟩ | ⟨f, -, rfl⟩⟩ := stepWith_cases h
  · obtain ⟨-, -, -, hd⟩ := fetch_ok hf
    rcases effect_run he with hs | ⟨rfl, -⟩ | ⟨b, -, rfl⟩ | ⟨-, -, rfl⟩
    · simp [ht, hr] at hs
    · exact hd
    · simp at ht
    · simp at ht
  · simp at ht

/-- An instruction other than HLT leaves the run state or faults. -/
theorem effect_run_of_ne_hlt {s t : State} {i : Instr} (h : Effect s i t) (hi : i ≠ .hlt) :
    t.run = s.run ∨ ∃ f, t.run = .faulted f := by
  rcases effect_run h with hs | ⟨rfl, -⟩ | ⟨b, -, rfl⟩ | ⟨-, -, rfl⟩
  · exact .inl hs
  · exact absurd rfl hi
  · exact .inr ⟨_, rfl⟩
  · exact .inr ⟨_, rfl⟩

/-- No instruction reads the run state: started from another one, it makes the same change. -/
theorem exec_from_run {i : Instr} {s t : State} (r : RunState) (h : exec i s = .next t) :
    ∃ u, exec i { s with run := r } = .next u ∧ { u with run := t.run } = t ∧
      (u.run = t.run ∨ (t.run = s.run ∧ u.run = r)) := by
  have hagree : AgreeOnReads s { s with run := r } := ⟨rfl, rfl, rfl, rfl⟩
  obtain ⟨u, hu, hsame⟩ := effect_of_agree hagree (exec_eq_next_iff.1 h)
  exact ⟨u, exec_of_effect hu, State.eq_of_fields (hsame.mem_eq rfl) hsame.regs (hsame.fl_eq rfl) hsame.pc rfl
    (hsame.out_eq rfl) (hsame.diag_eq rfl), hsame.run⟩

/-- Settles O15: the reached run states from `effect_run`, the reads from the change an instruction makes, and no step from
`stepWith_cases`. -/
theorem runStateIsWrittenByHltAndFaultsOnly : Obligations.RunStateIsWrittenByHltAndFaultsOnly :=
  ⟨rfl, fun _ _ => decode_hlt_of_step_halted, fun _ _ _ h => effect_run_of_ne_hlt (exec_eq_next_iff.1 h),
    fun _ => ⟨_, rfl, rfl⟩, fun _ _ _ r => exec_from_run r, fun _ _ hr h => hr (stepWith_cases h).1⟩

end Sys2Proof.Machine
end

section
/-! PROOFS. Where an instruction leaves the PC and which registers it writes (10_state.md R23, R25). -/

namespace Sys2Proof.Machine

/-- Faults of instructions are precise: one that ends Faulted from a Running state changed the run state alone (40_cycle.md R89). -/
theorem effect_of_faulted {s t : State} {i : Instr} {f : FaultRecord} (hr : s.run = .running) (h : Effect s i t)
    (ht : t.run = .faulted f) : t = s.raise f := by
  rcases effect_run h with hs | ⟨-, hs⟩ | ⟨b, -, rfl⟩ | ⟨-, -, rfl⟩
  · simp [ht, hr] at hs
  · simp [ht] at hs
  · rw [State.raise_run] at ht; rw [RunState.faulted.inj ht]
  · rw [State.raise_run] at ht; rw [RunState.faulted.inj ht]

/-- Settles O16: a fault leaves the PC by its precision, and every other effect says where it goes. -/
theorem pcAfterEachInstruction : Obligations.PcAfterEachInstruction := by
  intro i s t hr hex
  have h := exec_eq_next_iff.1 hex
  refine ⟨fun f ht => by rw [effect_of_faulted hr h ht, State.raise_pc], fun hsafe => ?_⟩
  cases h with
  | badRegister | callFault => exact absurd rfl (hsafe _)
  | hlt | ldi | prn | cmp | push | popEmpty | pop => rfl
  | alu _ a v len ha => cases ha <;> rfl
  | call r | retEmpty r | ret r | jmp r => exact ⟨r, rfl, rfl⟩
  | jeqTaken r hE => exact ⟨r, rfl, by rw [if_pos hE]; rfl⟩
  | jeqPassed r hE => exact ⟨r, rfl, by rw [if_neg (by simp [hE])]; rfl⟩
  | jneTaken r hE => exact ⟨r, rfl, by rw [if_neg (by simp [hE])]; rfl⟩
  | jnePassed r hE => exact ⟨r, rfl, by rw [if_pos hE]; rfl⟩

/-- An ALU effect goes to the first operand's register. -/
theorem aluEffect_head? {s : State} {i : Instr} {a : RegIndex} {v : Byte} {len : Nat} (h : AluEffect s i a v len) :
    i.regOperands.head? = some (regByte a) := by
  cases h <;> rfl

/-- A push writes R7 alone. -/
theorem sameRegsExcept_pushed (s : State) (v : Byte) : SameRegsExcept [7] s (pushed s v) := fun k hk => by
  rw [pushed_reg, if_neg (List.ne_of_not_mem_cons hk)]

/-- A register write leaves every register alone that the first operand does not name. -/
theorem reg_setReg_of_head?_ne {s : State} {i : Instr} {a k : RegIndex} (v : Int)
    (ha : i.regOperands.head? = some (regByte a)) (hk : i.regOperands.head? ≠ some (regByte k)) :
    (s.setReg a v).reg k = s.reg k :=
  State.reg_setReg_other s v fun hka => hk (hka ▸ ha)

/-- A pop writes its operand's register and R7 alone. -/
theorem popped_reg_of_operands_ne {s : State} {r k : RegIndex} (hk : k ≠ 7) (hr : [regByte r] ≠ [regByte k]) :
    (popped s r).reg k = s.reg k :=
  popped_reg_other s (fun hkr => hr (hkr ▸ rfl)) hk

/-- Settles O47: a fault writes no register, and every other effect's writes are among its instruction's. -/
theorem registersEachInstructionWrites : Obligations.RegistersEachInstructionWrites := by
  intro i s t hex
  cases exec_eq_next_iff.1 hex with
  | badRegister _ b h =>
    cases i with
    | hlt | prn | cmp | jmp | jeq | jne => rfl
    | push | call => exact fun _ _ => rfl
    | pop | ret => exact fun _ _ _ => rfl
    | ldi | not | add | mul | and | or | xor | shl => exact fun _ _ => rfl
  | hlt | prn | cmp | jmp | jeqTaken | jeqPassed | jneTaken | jnePassed => rfl
  | ldi r imm => exact fun k hk => reg_setReg_of_head?_ne _ rfl hk
  | alu _ a v len h =>
    have hwrites : ∀ k : RegIndex, i.regOperands.head? ≠ some (regByte k) → (s.setReg a v.toNat).reg k = s.reg k :=
      fun k => reg_setReg_of_head?_ne _ (aluEffect_head? h)
    cases h <;> exact hwrites
  | push r => exact sameRegsExcept_pushed s ((lowered s).reg r)
  | callFault r h => exact fun _ _ => rfl
  | call r h => exact sameRegsExcept_pushed s (truncate ((s.pc + 2 : Nat) : Int))
  | popEmpty r h | retEmpty r h => exact fun _ _ _ => rfl
  | pop r h | ret r h => exact fun k hk hr => popped_reg_of_operands_ne hk hr

end Sys2Proof.Machine
end

section
/-! PROOFS. CMP's flags (10_state.md R27, 42_alu.md R119) and the reset state (R33). -/

namespace Sys2Proof.Machine

theorem compareFlags_of_eq {a b : Byte} (h : a.toNat = b.toNat) : compareFlags a b = 0x01#8 :=
  if_pos (BitVec.eq_of_toNat_eq h)

theorem compareFlags_of_lt {a b : Byte} (h : a.toNat < b.toNat) : compareFlags a b = 0x02#8 :=
  (if_neg fun he => h.ne (congrArg BitVec.toNat he)).trans (if_pos h)

theorem compareFlags_of_gt {a b : Byte} (h : b.toNat < a.toNat) : compareFlags a b = 0x04#8 :=
  (if_neg fun he => h.ne' (congrArg BitVec.toNat he)).trans (if_neg h.not_gt)

/-- E, L and G after a comparison say which of the three cases of an unsigned comparison holds. -/
theorem compareFlags_bits (a b : Byte) :
    (compareFlags a b).getLsbD 0 = decide (a.toNat = b.toNat) ∧
    (compareFlags a b).getLsbD 1 = decide (a.toNat < b.toNat) ∧
    (compareFlags a b).getLsbD 2 = decide (b.toNat < a.toNat) := by
  rcases Nat.lt_trichotomy a.toNat b.toNat with h | h | h
  · simp [compareFlags_of_lt h, h, h.ne, h.le]
  · simp [compareFlags_of_eq h, h]
  · simp [compareFlags_of_gt h, h, h.ne', h.le]

/-- Settles O32: CMP writes the comparison's flags byte and advances, and that is all it does. -/
theorem cmpSetsExactlyOneFlag : Obligations.CmpSetsExactlyOneFlag := by
  intro s a b
  obtain ⟨hE, hL, hG⟩ := compareFlags_bits (s.reg a) (s.reg b)
  exact ⟨_, exec_of_effect (.cmp a b), hE, hL, hG, compareFlags_cases _ _, rfl, fun _ _ => rfl,
    fun _ _ => rfl, rfl, rfl, rfl⟩

/-- R0 to R6 are 0 after reset. -/
theorem reset_reg : ∀ k : RegIndex, k ≠ 7 → State.reset.reg k = 0x00#8 := by decide

/-- Settles O20: the reset port gives the reset state from any state, and its fields are constants. -/
theorem resetState : Obligations.ResetState := fun _ =>
  ⟨Memory.read_nil, reset_reg, rfl, rfl, rfl, rfl, rfl, rfl, rfl⟩

end Sys2Proof.Machine
end

section
/-! PROOFS. Memory as an array of cells (20_memory.md R40, R49): a canonical list is fixed by what it reads, and holds the last writes. -/

namespace Sys2Proof.Machine

namespace Memory

/-- A pair of a memory with rising addresses is what its address reads as. -/
theorem read_of_mem {m : Memory} (hm : m.Pairwise (fun c d => c.1 < d.1)) {c : Host.Cell} (hc : c ∈ m) :
    m.read c.1 = c.2 := by
  induction m with
  | nil => cases hc
  | cons d m ih =>
    obtain ⟨hd, hm⟩ := List.pairwise_cons.1 hm
    rcases List.mem_cons.1 hc with rfl | hc
    · rw [read_cons, if_pos rfl]
    · rw [read_cons, if_neg (hd c hc).ne, ih hm hc]

/-- A cell that reads as anything but an unlisted one is listed. -/
theorem mem_of_read_ne {m : Memory} {a : Nat} (h : m.read a ≠ Config.unlistedByte) : (a, m.read a) ∈ m := by
  induction m with
  | nil => exact absurd (read_nil a) h
  | cons d m ih =>
    by_cases hd : d.1 = a
    · subst hd; rw [read_cons, if_pos rfl]; exact List.mem_cons_self
    · rw [read_cons, if_neg hd] at h ⊢
      exact List.mem_cons_of_mem d (ih h)

/-- The pairs of a canonical memory are the cells that read as something other than an unlisted cell. -/
theorem mem_iff {m : Memory} (hm : m.wf) {c : Host.Cell} :
    c ∈ m ↔ m.read c.1 = c.2 ∧ c.2 ≠ Config.unlistedByte := by
  obtain ⟨hsorted, hcells⟩ := hm
  constructor
  · exact fun hc => ⟨read_of_mem hsorted hc, (hcells c hc).2⟩
  · rintro ⟨hread, hne⟩
    rw [← hread] at hne
    exact (Prod.ext rfl hread : (c.1, m.read c.1) = c) ▸ mem_of_read_ne hne

end Memory

/-- Settles O22: the reads fix which pairs are listed, and the rising addresses fix their order. -/
theorem memoriesThatReadTheSameAreEqual : Obligations.MemoriesThatReadTheSameAreEqual := by
  intro m n hm hn hread
  have hasymm : Std.Asymm (fun c d : Host.Cell => c.1 < d.1) := ⟨fun _ _ => Nat.lt_asymm⟩
  refine List.Pairwise.eq_of_mem_iff hm.1 hn.1 fun c => ?_
  rw [Memory.mem_iff hm, Memory.mem_iff hn, hread]

/-- Writes to cells that exist keep the canonical form. -/
theorem Memory.wf_foldl_write {m : Memory} (hm : m.wf) {ws : List (Nat × Byte)} (h : ∀ w ∈ ws, w.1 ≤ 255) :
    (ws.foldl (fun n w => n.write w.1 w.2) m).wf :=
  List.foldlRecOn (motive := Memory.wf) ws _ hm fun _ hn w hw => Memory.wf_write hn (Nat.lt_succ_of_le (h w hw)) w.2

/-- Settles O23, by induction on the writes from the last one back: it decides its own cell, and the writes before it every other one. -/
theorem memoryHoldsTheLastWrite : Obligations.MemoryHoldsTheLastWrite := by
  intro m ws a hm h
  induction ws using List.reverseRecOn with
  | nil => rfl
  | append_singleton ws w ih =>
    have hws : ∀ v ∈ ws, v.1 ≤ 255 := fun v hv => h v (List.mem_append_left [w] hv)
    rw [List.foldl_concat, List.reverse_concat]
    by_cases ha : w.1 = a
    · subst ha
      rw [List.find?_cons_of_pos (by simp)]
      exact Memory.read_write_same (Memory.wf_foldl_write hm hws) w.1 w.2
    · rw [Memory.read_write_other _ w.2 (Ne.symm ha), List.find?_cons_of_neg (by simpa using ha)]
      exact ih hws

end Sys2Proof.Machine
end

section
/-! PROOFS. Stores (20_memory.md R41, R51; 43_stack.md R131): who writes memory, and that the next fetch sees what was written. -/

namespace Sys2Proof.Machine

/-- Settles O48: an effect on memory is one write below SP, and a write leaves every other cell alone. -/
theorem onlyPushAndCallWriteMemory : Obligations.OnlyPushAndCallWriteMemory := by
  intro i s t h
  refine (effect_mem (exec_eq_next_iff.1 h)).imp_right fun ⟨hi, v, hm⟩ => ⟨hi, fun a ha => ?_⟩
  rw [hm, Memory.read_write_other s.mem v (List.ne_of_not_mem_cons ha)]

/-- A step of a Running machine halts where the byte at the PC is HLT's opcode (41_data_output.md R100). -/
theorem step_of_hlt_at_pc {s : State} (hr : s.run = .running) (hp : s.pc < 256)
    (h : s.mem.read s.pc = defaultOpcode .hlt) : step s = .next (s.halt.advance 1) := by
  obtain ⟨rest, hw⟩ := fetchWindow_head hp
  have hd : decode (fetchWindow s) = .ok (.hlt, rest) := by rw [hw, h]; rfl
  rw [step_of_decode_ok hr hd, exec_of_effect .hlt]

/-- A step of a Running machine faults where the byte at the PC is no instruction's opcode (40_cycle.md R83). -/
theorem step_of_unknown_at_pc {s : State} {op : Byte} (hr : s.run = .running) (hp : s.pc < 256)
    (h : s.mem.read s.pc = op) (hl : lookup defaultOpcodes op = none) :
    step s = .next (s.raise (.unknownInstruction op s.pc)) := by
  obtain ⟨rest, hw⟩ := fetchWindow_head hp
  have hd : decode (fetchWindow s) = .error (.unknownOpcode op) := by rw [hw, h, decode, decodeWith, hl]
  exact step_of_decode_error hr hd

/-- Settles O39: the push leaves the PC at the cell that it wrote, so the step after it reads the byte pushed. -/
theorem pushedByteIsFetchedNext : Obligations.PushedByteIsFetchedNext := by
  intro s r hs hr hp hsp hr7
  have hexec : exec (.push (regByte r)) s = .next ((pushed s (s.reg r)).advance 2) := by
    rw [exec_of_effect (.push r), lowered_reg, if_neg hr7]
  have hpc : s.pc + 2 < 256 := Nat.lt_succ_of_le hp
  have hbyte : ((pushed s (s.reg r)).advance 2).mem.read (s.pc + 2) = s.reg r := by
    rw [State.advance_mem, ← hsp, pushed_read s (s.reg r) hs]
  refine ⟨_, hexec, (memRead_of_lt _ hpc).trans (congrArg _ hbyte), fun hv => ?_, fun hv => ?_⟩
  · exact step_of_hlt_at_pc hr hpc (hbyte.trans hv)
  · exact step_of_unknown_at_pc hr hpc (hbyte.trans hv) (by decide)

end Sys2Proof.Machine
end

section
/-! PROOFS. The decoder and the encoder are inverse to each other (30_encoding.md R60 to R68). -/

namespace Sys2Proof

/-! ### What the decoder answers -/

/-- What the decoder reads: the well-formed instruction whose encoding the bytes start with. -/
theorem decodeWith_eq_ok {opc : Config.OpcodeMap} {bytes rest : List Byte} {i : Instr} :
    decodeWith opc bytes = .ok (i, rest) ↔ i.WellFormed ∧ bytes = encodeWith opc i ++ rest := by
  constructor
  · intro h
    match bytes with
    | [] => cases h
    | op :: operands =>
      rw [decodeWith] at h
      split at h
      next => cases h
      next m hm =>
        obtain ⟨rfl, hw, rfl⟩ := takeOperands_eq_ok.1 h
        obtain rfl := lookup_eq_some.1 hm
        exact ⟨hw, rfl⟩
  · rintro ⟨hw, rfl⟩
    exact decodeWith_encodeWith opc hw rest

/-- The opcode byte is reported as unknown exactly where the dispatch table has no instruction for it (R65). -/
theorem decodeWith_cons_unknown {opc : Config.OpcodeMap} {op : Byte} {rest : List Byte} :
    decodeWith opc (op :: rest) = .error (.unknownOpcode op) ↔ lookup opc op = none := by
  rw [decodeWith]
  cases lookup opc op with
  | none => simp
  | some m => simp [takeOperands_ne_unknown]

/-- A decoded instruction has the opcode byte that it was read from. -/
theorem opcode_of_decodeWith {opc : Config.OpcodeMap} {op : Byte} {bytes rest : List Byte} {i : Instr}
    (h : decodeWith opc (op :: bytes) = .ok (i, rest)) : opc.byte i.mnemonic = op :=
  (List.cons.inj (decodeWith_eq_ok.1 h).2).1.symm

/-- Decoding gives up as many bytes as the instruction is long (R60). -/
theorem length_of_decodeWith {opc : Config.OpcodeMap} {bytes rest : List Byte} {i : Instr}
    (h : decodeWith opc bytes = .ok (i, rest)) : bytes.length = i.mnemonic.length + rest.length := by
  rw [(decodeWith_eq_ok.1 h).2, List.length_append, encodeWith_length]

/-! ### How many opcode bytes are legal -/

/-- A number below 256 is a legal opcode byte exactly if it is some instruction's. -/
theorem lookup_ofNat_isSome {opc : Config.OpcodeMap} {n : Nat} :
    n < 256 ∧ (lookup opc (BitVec.ofNat 8 n)).isSome ↔ ∃ m, (opc.byte m).toNat = n := by
  simp only [Option.isSome_iff_exists, lookup_eq_some]
  constructor
  · rintro ⟨hn, m, hm⟩
    exact ⟨m, by rw [hm, BitVec.toNat_ofNat, Nat.mod_eq_of_lt hn]⟩
  · rintro ⟨m, rfl⟩
    exact ⟨(opc.byte m).isLt, m, by simp⟩

/-- The legal opcode bytes are those of the 18 instructions, which are distinct. -/
theorem legalOpcodes_perm (opc : Config.OpcodeMap) :
    ((List.range 256).filter fun n => (lookup opc (BitVec.ofNat 8 n)).isSome).Perm
      (Mnemonic.all.map fun m => (opc.byte m).toNat) := by
  have hinj : Function.Injective fun m => (opc.byte m).toNat :=
    fun m n h => opc.injective m n (BitVec.eq_of_toNat_eq h)
  have hall : Mnemonic.all.Nodup := by decide
  rw [List.perm_ext_iff_of_nodup (List.nodup_range.filter _) (hall.map hinj)]
  intro n
  simp only [List.mem_filter, List.mem_range, lookup_ofNat_isSome, List.mem_map, mem_all, true_and]

/-- Every opcode map leaves 238 of the 256 bytes illegal. -/
theorem illegalOpcodes_length (opc : Config.OpcodeMap) :
    ((List.range 256).filter fun n => (lookup opc (BitVec.ofNat 8 n)).isNone).length = 238 := by
  have hsplit := List.length_eq_length_filter_add (l := List.range 256) fun n => (lookup opc (BitVec.ofNat 8 n)).isSome
  have hlegal : ((List.range 256).filter fun n => (lookup opc (BitVec.ofNat 8 n)).isSome).length = 18 :=
    (legalOpcodes_perm opc).length_eq
  simp only [hlegal, List.length_range, Option.not_isSome] at hsplit
  omega

/-! ### The obligations -/

/-- Settles O2: the opcode byte finds the instruction's kind, and the operand bytes are read back as they were written. -/
theorem decodeOfEncodeIsIdentity : Obligations.DecodeOfEncodeIsIdentity :=
  fun opc _ rest hw => decodeWith_encodeWith opc hw rest

/-- Settles O3: the direction of `decodeWith_eq_ok` from the bytes to the encoding. -/
theorem decodedBytesAreAnEncoding : Obligations.DecodedBytesAreAnEncoding :=
  fun _ _ _ _ h => decodeWith_eq_ok.1 h

/-- Settles O5: the dispatch table alone rejects an opcode byte, and it is empty exactly at the bytes of no instruction. -/
theorem opcodeByteIsMatchedWhole : Obligations.OpcodeByteIsMatchedWhole :=
  fun _ _ _ => ⟨decodeWith_cons_unknown.trans lookup_eq_none, fun _ _ h => opcode_of_decodeWith h⟩

/-- Settles O6: no two kinds share an opcode byte, and the bytes given up are the kind's length. -/
theorem lengthIsFixedByOpcodeByte : Obligations.LengthIsFixedByOpcodeByte := by
  intro opc op bs cs i j bs' cs' hb hc
  have hkind : i.mnemonic = j.mnemonic :=
    opc.injective _ _ ((opcode_of_decodeWith hb).trans (opcode_of_decodeWith hc).symm)
  exact ⟨hkind, length_of_decodeWith hb, hkind ▸ length_of_decodeWith hc, mnemonic_length_bounds _⟩

/-- Settles O1: each word is the encoding of its instruction, which is well formed. -/
theorem encodedWordsDecode : Obligations.EncodedWordsDecode := by
  refine ⟨?_, ?_, ?_, ?_, ?_, ?_, ?_, ?_, ?_, ?_⟩ <;> exact decodeWith_eq_ok.2 (by decide)

/-- Settles O4: the count from the 18 distinct legal bytes, and the listed bytes by the dispatch table. -/
theorem illegalOpcodeBytes : Obligations.IllegalOpcodeBytes := by
  refine ⟨illegalOpcodes_length defaultOpcodes, fun op hop rest => decodeWith_cons_unknown.2 ?_⟩
  revert op
  decide

end Sys2Proof

namespace Sys2Proof.Machine

/-- Settles O11: the first register operand above 7 is the one that the register check finds, and it comes before any effect. -/
theorem registerOperandAboveSevenFaults : Obligations.RegisterOperandAboveSevenFaults :=
  fun _ s _ _ _ hsplit hgood hbad => exec_of_badRegister s (badRegister_of_split hsplit hgood hbad)

end Sys2Proof.Machine
end

section
/-! PROOFS. When a step is enabled, what it runs, and the precision of faults (40_cycle.md R80, R89, R90, R92, R93). -/

namespace Sys2Proof.Machine

/-! ### Which states a step is enabled in (R80, R92) -/

/-- A Halted machine's step answers that it is Halted. -/
theorem stepWith_of_halted (opc : Config.OpcodeMap) {s : State} (h : s.run = .halted) :
    stepWith opc s = .fault .halted := by
  simp [stepWith, whenStopped, h]

/-- A Faulted machine's step answers the machine's fault. -/
theorem stepWith_of_faulted (opc : Config.OpcodeMap) {s : State} {f : FaultRecord} (h : s.run = .faulted f) :
    stepWith opc s = .fault (.faulted f) := by
  simp [stepWith, whenStopped, h]

/-- A Running machine's step answers a next state: the fetch's fault, or the effect that every instruction has. -/
theorem exists_stepWith_of_running (opc : Config.OpcodeMap) {s : State} (h : s.run = .running) :
    ∃ t, stepWith opc s = .next t := by
  rw [stepWith_running opc h]
  cases fetch opc s with
  | error f => exact ⟨_, rfl⟩
  | ok i =>
    obtain ⟨t, ht⟩ := effect_total s i
    exact ⟨t, exec_of_effect ht⟩

/-- A machine that does not run has a fault as its step's answer. -/
theorem exists_fault_of_not_running (opc : Config.OpcodeMap) {s : State} (h : s.run ≠ .running) :
    ∃ r, stepWith opc s = .fault r := by
  cases hr : s.run with
  | running => exact absurd hr h
  | halted => exact ⟨_, stepWith_of_halted opc hr⟩
  | faulted f => exact ⟨_, stepWith_of_faulted opc hr⟩

theorem stepWith_ne_refused (opc : Config.OpcodeMap) (s : State) (r : Refusal) : stepWith opc s ≠ .refused r := by
  by_cases hr : s.run = .running
  · obtain ⟨t, ht⟩ := exists_stepWith_of_running opc hr
    simp [ht]
  · obtain ⟨q, hq⟩ := exists_fault_of_not_running opc hr
    simp [hq]

/-- Settles O13: a next state only from Running by `stepWith_cases`, and always from there because every instruction has an effect. -/
theorem stepIsEnabledExactlyWhenRunning : Obligations.StepIsEnabledExactlyWhenRunning := fun opc s =>
  ⟨⟨fun ⟨_, h⟩ => (stepWith_cases h).1, exists_stepWith_of_running opc⟩, stepWith_ne_refused opc s⟩

/-- Settles O14: the stop is answered before anything is fetched. -/
theorem terminalStatesAnswerTheirFault : Obligations.TerminalStatesAnswerTheirFault := fun _ =>
  ⟨stepWith_of_halted defaultOpcodes, fun _ => stepWith_of_faulted defaultOpcodes⟩

/-! ### The run loop (R93) -/

theorem runLoop_of_next {s t : State} (n : Nat) (h : step s = .next t) : runLoop (n + 1) s = runLoop n t := by
  rw [runLoop, h]

/-- The loop leaves a machine that does not run as it is. -/
theorem runLoop_of_not_running {s : State} (n : Nat) (h : s.run ≠ .running) : runLoop n s = s := by
  cases n with
  | zero => rfl
  | succ n =>
    obtain ⟨r, hr⟩ := exists_fault_of_not_running defaultOpcodes h
    rw [runLoop, step, hr]

/-- A run cut in two is the run. -/
theorem runLoop_add (m n : Nat) (s : State) : runLoop (m + n) s = runLoop n (runLoop m s) := by
  induction m generalizing s with
  | zero => rw [Nat.zero_add, runLoop]
  | succ m ih =>
    by_cases hr : s.run = .running
    · obtain ⟨t, ht⟩ : ∃ t, step s = .next t := exists_stepWith_of_running defaultOpcodes hr
      rw [Nat.succ_add, runLoop_of_next _ ht, runLoop_of_next _ ht, ih]
    · simp only [runLoop_of_not_running _ hr]

/-- Settles O54: by induction on the first part's fuel, and then the second part starts in a state that the loop leaves as it is. -/
theorem loopStaysInTerminalStates : Obligations.LoopStaysInTerminalStates := fun s m n =>
  ⟨runLoop_add m n s, fun h => (runLoop_add m n s).trans (runLoop_of_not_running n h)⟩

/-! ### Precision of faults (R89) -/

/-- Settles O12: a fetch's fault is raised in the state before the step, and so is an instruction's by `effect_of_faulted`. -/
theorem faultsArePrecise : Obligations.FaultsArePrecise := by
  intro opc s t f h ht
  obtain ⟨hr, ⟨i, -, he⟩ | ⟨g, -, rfl⟩⟩ := stepWith_cases h
  · exact effect_of_faulted hr he ht
  · obtain rfl : g = f := RunState.faulted.inj ht
    rfl

/-! ### The instruction a step runs (R90) -/

/-- Settles O8: in the Running state a step is the decoded instruction. -/
theorem stepRunsTheDecodedInstruction : Obligations.StepRunsTheDecodedInstruction :=
  fun _ _ _ hr h => step_of_decode_ok hr h

/-- A table word that decodes starts with the bytes of its instruction, which is well formed. -/
theorem tableBytes_of_decodeTableWord {nbits w : Nat} {i : Instr} (h : decodeTableWord nbits w = some i) :
    i.WellFormed ∧ ∃ rest, tableBytes nbits w = encode i ++ rest := by
  unfold decodeTableWord at h
  split at h
  next j rest hd =>
    obtain rfl := Option.some.inj h
    obtain ⟨hw, hbytes⟩ := decodeWith_eq_ok.1 hd
    exact ⟨hw, rest, hbytes⟩
  next => cases h

/-- An instruction that a word has bits enough for lies within the 256 cells from where the word is placed. -/
theorem placeAt_add_length_le (s : State) {nbits : Nat} {m : Mnemonic} (h : 8 * m.length ≤ nbits) :
    placeAt s nbits + m.length ≤ 256 := by
  have hm := (mnemonic_length_bounds m).2
  unfold placeAt
  split
  next hp => rw [Config.memSize] at hp; omega
  next => omega

/-- A byte of a placed word is read back from the PC on, where there is a cell for it. -/
theorem read_withFetchWord {s : State} {nbits w k : Nat} {b : Byte} (hs : s.mem.wf)
    (hb : (tableBytes nbits w)[k]? = some b) (hk : (s.withFetchWord nbits w).pc + k < 256) :
    (s.withFetchWord nbits w).mem.read ((s.withFetchWord nbits w).pc + k) = b :=
  read_writeBytes hs hb hk

/-- Settles O7: the word's first bytes are its instruction's encoding, they are placed within the 256 cells, and what stands there is
what a step runs. -/
theorem placedTableWordIsWhatStepRuns : Obligations.PlacedTableWordIsWhatStepRuns := by
  intro s nbits w i hs hdec hbits
  obtain ⟨hw, rest, hword⟩ := tableBytes_of_decodeTableWord hdec
  have hfit : (s.withFetchWord nbits w).pc + i.mnemonic.length ≤ 256 := placeAt_add_length_le s hbits
  refine stepRunsTheInstructionInMemory _ i rfl hw hfit fun k b hb => ?_
  obtain ⟨hk, -⟩ := List.getElem?_eq_some_iff.1 hb
  have hlen : (encode i).length = i.mnemonic.length := encodeWith_length defaultOpcodes i
  refine read_withFetchWord hs ?_ (by omega)
  rw [hword, List.getElem?_append_left hk, hb]

end Sys2Proof.Machine
end

section
/-! PROOFS. The order of the checks of a step (60_exceptions.md R155): each check's fault, where the checks before it pass. -/

namespace Sys2Proof

theorem takeOne_of_short {c : Byte → Instr} {bytes : List Byte} (h : bytes.length < 1) :
    takeOne c bytes = .error (.missingByte (bytes.length + 1)) := by
  match bytes with
  | [] => rfl

theorem takeTwo_of_short {c : Byte → Byte → Instr} {bytes : List Byte} (h : bytes.length < 2) :
    takeTwo c bytes = .error (.missingByte (bytes.length + 1)) := by
  match bytes with
  | [] => rfl
  | [_] => rfl

/-- Too few operand bytes: the one right after those there are is missing, whatever they hold (40_cycle.md R85). -/
theorem takeOperands_of_short {m : Mnemonic} {bytes : List Byte} (h : bytes.length < m.format.operandCount) :
    takeOperands m bytes = .error (.missingByte (bytes.length + 1)) := by
  cases m with
  | hlt => cases h
  | ldi | mul | add | and | or | xor | shl | cmp => exact takeTwo_of_short h
  | prn | not | push | pop | call | ret | jmp | jeq | jne => exact takeOne_of_short h

theorem operandCount_le (m : Mnemonic) : m.format.operandCount ≤ 2 :=
  Nat.le_of_succ_le_succ (mnemonic_length_bounds m).2

/-- An instruction whose one register operand names a register is well formed. -/
theorem wellFormed_of_regByte {i : Instr} {r : RegIndex} (h : i.regOperands = [regByte r]) : i.WellFormed := by
  have hr := r.isLt
  simp only [Instr.WellFormed, h, List.forall_mem_singleton, Machine.regByte_toNat]
  omega

end Sys2Proof

namespace Sys2Proof.Machine

/-- Fetch bound: past the last cell nothing is fetched (40_cycle.md R82). -/
theorem step_of_pc_past_memory {s : State} (hr : s.run = .running) (hp : 256 ≤ s.pc) :
    step s = .next (s.raise (.outOfBoundsMemory s.pc)) := by
  have hd : decode (fetchWindow s) = .error (.missingByte 0) := by rw [fetchWindow_none hp]; rfl
  exact step_of_decode_error hr hd

/-- Operand bounds: an instruction whose operands run past the last cell reads at 256 (40_cycle.md R85). -/
theorem step_of_operands_past_memory {s : State} {m : Mnemonic} (hr : s.run = .running) (hp : s.pc < 256)
    (hm : s.mem.read s.pc = defaultOpcode m) (hlong : 256 ≤ s.pc + m.format.operandCount) :
    step s = .next (s.raise (.outOfBoundsMemory 256)) := by
  have hcount := operandCount_le m
  have hle := fetchWindow_length_le hp
  have hend : s.pc + (fetchWindow s).length = 256 := fetchWindow_length_of_short hp.le (by omega)
  obtain ⟨operands, hw⟩ := fetchWindow_head hp
  have hlen : (fetchWindow s).length = operands.length + 1 := by rw [hw, List.length_cons]
  have hd : decode (fetchWindow s) = .error (.missingByte (fetchWindow s).length) := by
    rw [hlen, hw, hm]
    have hlookup : lookup defaultOpcodes (defaultOpcode m) = some m := lookup_byte defaultOpcodes m
    rw [decode, decodeWith, hlookup]
    exact takeOperands_of_short (by omega)
  rw [step_of_decode_error hr hd, decodeFault, hend]

/-- Register indices: an instruction in memory with a register operand above 7 faults for the first such operand (40_cycle.md R86). -/
theorem step_of_badRegister {s : State} {i : Instr} {b : Byte} (hr : s.run = .running)
    (hp : s.pc + i.mnemonic.length ≤ 256) (hbytes : ∀ k c, (encode i)[k]? = some c → s.mem.read (s.pc + k) = c)
    (hb : i.badRegister = some b) : step s = .next (s.raise (.outOfBoundsRegister b.toNat)) := by
  have hlen : (encode i).length = i.mnemonic.length := encodeWith_length defaultOpcodes i
  obtain ⟨rest, hw⟩ := fetchWindow_of_bytes (hlen ▸ (mnemonic_length_bounds _).2) (hlen ▸ hp) hbytes
  have hd : decode (fetchWindow s) = .error (.badRegister b) := by
    rw [hw]; exact decodeWith_of_badRegister defaultOpcodes hb rest
  exact step_of_decode_error hr hd

/-- CALL's return address: a CALL in the last two cells would return to 256 (44_control_transfer.md R142). -/
theorem step_of_call_at_end {s : State} {r : RegIndex} (hr : s.run = .running) (hp : s.pc = 254)
    (hop : s.mem.read 254 = defaultOpcode .call) (hreg : s.mem.read 255 = regByte r) :
    step s = .next (s.raise (.outOfBoundsMemory 256)) := by
  have hd : decode (fetchWindow s) = .ok (.call (regByte r), []) := by
    rw [fetchWindow_two hp, hop, hreg]
    exact decodeWith_encodeWith defaultOpcodes (wellFormed_of_regByte (i := .call (regByte r)) rfl) []
  rw [step_of_decode_ok hr hd, exec_of_effect (.callFault r (by omega)), hp]

/-- Settles O10: one lemma per check, each from what the fetch window decodes to. -/
theorem faultPriority : Obligations.FaultPriority := fun _ hr =>
  ⟨step_of_pc_past_memory hr,
    fun hp hop => step_of_unknown_at_pc hr (Nat.lt_succ_of_le hp) rfl (lookup_eq_none.2 hop),
    fun _ hp => step_of_operands_past_memory hr (Nat.lt_succ_of_le hp),
    fun _ _ _ _ hp hbytes hsplit hgood hbad => step_of_badRegister hr hp hbytes (badRegister_of_split hsplit hgood hbad),
    fun _ => step_of_call_at_end hr⟩

end Sys2Proof.Machine
end

section
/-! PROOFS. HLT, LDI and PRN (41_data_output.md R100 to R102), and the two streams (R102, 60_exceptions.md R156). -/

namespace Sys2Proof.Machine

/-! ### The streams -/

/-- The output stream after an instruction: untouched, or one byte longer after PRN. -/
theorem effect_out {s t : State} {i : Instr} (h : Effect s i t) :
    t.out = s.out ∨ (i.mnemonic = .prn ∧ ∃ v, t.out = s.out ++ [v]) := by
  cases h with
  | prn r => exact .inr ⟨rfl, _, rfl⟩
  | _ => exact .inl rfl

/-- The report stream after an instruction: untouched, or one report longer after POP or RET. -/
theorem effect_diag {s t : State} {i : Instr} (h : Effect s i t) :
    t.diag = s.diag ∨ ((i.mnemonic = .pop ∨ i.mnemonic = .ret) ∧ ∃ r, t.diag = s.diag ++ [r]) := by
  cases h with
  | popEmpty r hsp => exact .inr ⟨.inl rfl, _, rfl⟩
  | retEmpty r hsp => exact .inr ⟨.inr rfl, _, rfl⟩
  | _ => exact .inl rfl

/-- A stream that stays as it is, or gets one entry where `P` holds, is appended to: at most one entry, and none unless `P`. -/
theorem exists_appended {α : Type} {l l' : List α} {P : Prop} (h : l' = l ∨ (P ∧ ∃ v, l' = l ++ [v])) :
    ∃ o, l' = l ++ o ∧ o.length ≤ 1 ∧ (o ≠ [] → P) := by
  rcases h with rfl | ⟨hP, v, rfl⟩
  · exact ⟨[], (List.append_nil _).symm, Nat.zero_le 1, fun h => absurd rfl h⟩
  · exact ⟨[v], rfl, le_rfl, fun _ => hP⟩

/-- No instruction reads the streams: started with others, it makes the same change and appends the same entries to them. -/
theorem exec_from_streams {i : Instr} {s t : State} {o : List Byte} {d : List Report} (h : Effect s i t)
    (ho : t.out = s.out ++ o) (hd : t.diag = s.diag ++ d) (o' : List Byte) (d' : List Report) :
    exec i { s with out := o', diag := d' } = .next { t with out := o' ++ o, diag := d' ++ d } := by
  have hagree : AgreeOnReads s { s with out := o', diag := d' } := ⟨rfl, rfl, rfl, rfl⟩
  obtain ⟨u, hu, hsame⟩ := effect_of_agree hagree h
  have hout : u.out = o' ++ o := by
    obtain ⟨x, hx, hux⟩ := hsame.out
    rwa [List.append_cancel_left (hx.symm.trans ho)] at hux
  have hdiag : u.diag = d' ++ d := by
    obtain ⟨x, hx, hux⟩ := hsame.diag
    rwa [List.append_cancel_left (hx.symm.trans hd)] at hux
  have hfinal : u = { t with out := o' ++ o, diag := d' ++ d } :=
    State.eq_of_fields (hsame.mem_eq rfl) hsame.regs (hsame.fl_eq rfl) hsame.pc (hsame.run_eq rfl) hout hdiag
  exact hfinal ▸ exec_of_effect hu

/-- Settles O49: each stream is appended to as `effect_out` and `effect_diag` say, and from other streams the change is the same. -/
theorem streamsGrowAndAreNeverRead : Obligations.StreamsGrowAndAreNeverRead := by
  intro i s t hex
  have h := exec_eq_next_iff.1 hex
  obtain ⟨o, ho, holen, hprn⟩ := exists_appended (effect_out h)
  obtain ⟨d, hd, hdlen, hpop⟩ := exists_appended (effect_diag h)
  exact ⟨o, d, ho, hd, holen, hdlen, hprn, hpop, exec_from_streams h ho hd⟩

/-! ### The three instructions -/

/-- Settles O26: HLT's one effect. -/
theorem hltHalts : Obligations.HltHalts := fun _ => exec_of_effect .hlt

/-- A register write followed by the advance of the PC writes the register and nothing else. -/
theorem writesRegister_setReg_advance (s : State) (i : RegIndex) (v : Byte) (len : Nat) :
    WritesRegister s ((s.setReg i v.toNat).advance len) i v len := by
  have hreg : ((s.setReg i v.toNat).advance len).reg i = v := by simp
  exact ⟨hreg, sameRegsExcept_setReg s i v.toNat, rfl, rfl, fun _ _ => rfl, rfl, rfl, rfl⟩

/-- Settles O27: LDI's one effect on a register operand is the write of its immediate. -/
theorem ldiWritesTheImmediate : Obligations.LdiWritesTheImmediate := fun s r imm =>
  ⟨_, exec_of_effect (.ldi r imm), writesRegister_setReg_advance s r imm 3⟩

/-- Settles O28: PRN's one effect on a register operand. -/
theorem prnEmitsTheRegister : Obligations.PrnEmitsTheRegister := fun _ r => exec_of_effect (.prn r)

end Sys2Proof.Machine
end

section
/-! PROOFS. The ALU instructions that write a register (42_alu.md R110 to R118) and the ALU's set of operations (R120). -/

namespace Sys2Proof.Machine

/-! ### Values on bytes -/

/-- A truncated product is the product mod 256 (42_alu.md R113). -/
theorem truncate_mul (a b : Byte) : truncate ((a.toNat : Int) * b.toNat) = a * b :=
  BitVec.eq_of_toNat_eq ((truncate_natCast_toNat (a.toNat * b.toNat)).trans (BitVec.toNat_mul a b).symm)

/-- A truncated multiple by a power of two is a left shift with zero fill (42_alu.md R118). -/
theorem truncate_mul_two_pow (a : Byte) (n : Nat) : truncate ((a.toNat : Int) * 2 ^ n) = a <<< n := by
  apply BitVec.eq_of_toNat_eq
  have hcast : (a.toNat : Int) * 2 ^ n = ((a.toNat * 2 ^ n : Nat) : Int) := by push_cast; rfl
  rw [hcast, truncate_natCast_toNat, BitVec.toNat_shiftLeft, Nat.shiftLeft_eq]

/-- XOR with 0xFF is the complement (42_alu.md R117). -/
theorem ff_xor (a : Byte) : 0xFF#8 ^^^ a = ~~~a := BitVec.allOnes_xor

/-- Adding the two's complement subtracts mod 256 (42_alu.md R111). -/
theorem add_not_add_one (a b : Byte) : a + (~~~b + 0x01#8) = a - b := by
  rw [← BitVec.neg_eq_not_add, BitVec.sub_eq_add_neg]

/-! ### What the instructions write -/

/-- An ALU instruction with a result writes it to its first register and changes nothing else but the PC (42_alu.md R110). -/
theorem exec_alu_writes {s : State} {i : Instr} {a : RegIndex} {v : Byte} {len : Nat} (h : AluEffect s i a v len) :
    ∃ t, exec i s = .next t ∧ WritesRegister s t a v len :=
  ⟨_, exec_of_aluEffect h, writesRegister_setReg_advance s a v len⟩

theorem exec_add_writes (s : State) (a b : RegIndex) :
    ∃ t, exec (.add (regByte a) (regByte b)) s = .next t ∧ WritesRegister s t a (s.reg a + s.reg b) 3 :=
  truncate_add (s.reg a) (s.reg b) ▸ exec_alu_writes (.add a b)

theorem exec_mul_writes (s : State) (a b : RegIndex) :
    ∃ t, exec (.mul (regByte a) (regByte b)) s = .next t ∧ WritesRegister s t a (s.reg a * s.reg b) 3 :=
  truncate_mul (s.reg a) (s.reg b) ▸ exec_alu_writes (.mul a b)

theorem exec_not_writes (s : State) (a : RegIndex) :
    ∃ t, exec (.not (regByte a)) s = .next t ∧ WritesRegister s t a (~~~(s.reg a)) 2 :=
  ff_xor (s.reg a) ▸ exec_alu_writes (.not a)

/-- SHL's count is the whole value of register b (decision D19). -/
theorem exec_shl_writes (s : State) (a b : RegIndex) :
    ∃ t, exec (.shl (regByte a) (regByte b)) s = .next t ∧ WritesRegister s t a (s.reg a <<< (s.reg b).toNat) 3 :=
  truncate_mul_two_pow (s.reg a) (s.reg b).toNat ▸ exec_alu_writes (.shl a b)

/-- A write of a known value is a write of some value with every property that this one has. -/
theorem exists_written {s : State} {i : Instr} {a : RegIndex} {v : Byte} {len : Nat} {P : Byte → Prop}
    (h : ∃ t, exec i s = .next t ∧ WritesRegister s t a v len) (hv : P v) :
    ∃ t v, exec i s = .next t ∧ WritesRegister s t a v len ∧ P v := by
  obtain ⟨t, hex, hw⟩ := h
  exact ⟨t, v, hex, hw, hv⟩

/-- Settles O29: the values written are the sum and the product of bytes. -/
theorem addAndMulWrap : Obligations.AddAndMulWrap := fun s a b =>
  ⟨exists_written (exec_add_writes s a b) (BitVec.toNat_add _ _),
    exists_written (exec_mul_writes s a b) (BitVec.toNat_mul _ _)⟩

/-- Settles O30: the values written are the bitwise operations on bytes, whose bits are the library's. -/
theorem bitwiseOperations : Obligations.BitwiseOperations := fun s a b =>
  ⟨exists_written (exec_alu_writes (.and a b)) fun _ _ => BitVec.getLsbD_and,
    exists_written (exec_alu_writes (.or a b)) fun _ _ => BitVec.getLsbD_or,
    exists_written (exec_alu_writes (.xor a b)) fun _ _ => BitVec.getLsbD_xor,
    exists_written (exec_not_writes s a) fun n hn => by rw [BitVec.getLsbD_not, decide_eq_true hn, Bool.true_and]⟩

/-- Bit `n` of a byte shifted left by `k`: the bit `k` places below, or a zero filled in. -/
theorem getLsbD_shl (v : Byte) (k : Nat) {n : Nat} (hn : n < 8) :
    (v <<< k).getLsbD n = (decide (k ≤ n) && v.getLsbD (n - k)) := by
  rw [BitVec.getLsbD_shiftLeft, decide_eq_true hn, Bool.true_and, ← decide_not, decide_eq_decide.2 Nat.not_lt]

/-- Settles O31: the value written is the shifted byte, seen as a number, bit by bit, and past its width. -/
theorem shlShiftsByTheWholeRegister : Obligations.ShlShiftsByTheWholeRegister := fun s a b =>
  exists_written (exec_shl_writes s a b)
    ⟨by rw [BitVec.toNat_shiftLeft, Nat.shiftLeft_eq], fun _ => getLsbD_shl _ _, BitVec.shiftLeft_eq_zero⟩

/-- Settles O34: the three writes one after the other; the second leaves the two's complement of b in register b. -/
theorem subtractionByNotAndAdd : Obligations.SubtractionByNotAndAdd := by
  intro s a b c hab hac hbc hc
  obtain ⟨s₁, hex₁, hb₁, hkeep₁, hpc₁, hfl₁, -⟩ := exec_not_writes s b
  obtain ⟨s₂, hex₂, hb₂, hkeep₂, hpc₂, hfl₂, -⟩ := exec_add_writes s₁ b c
  obtain ⟨s₃, hex₃, ha₃, -, hpc₃, hfl₃, -⟩ := exec_add_writes s₂ a b
  have hc₁ : s₁.reg c = 0x01#8 := (hkeep₁ c (by simp [hbc.symm])).trans hc
  have ha₂ : s₂.reg a = s.reg a := (hkeep₂ a (by simp [hab])).trans (hkeep₁ a (by simp [hab]))
  have hdiff : s₃.reg a = s.reg a - s.reg b := by
    rw [ha₃, ha₂, hb₂, hb₁, hc₁, add_not_add_one]
  exact ⟨s₁, s₂, s₃, hex₁, hex₂, hex₃, hdiff, by rw [hfl₃, hfl₂, hfl₁], by omega⟩

/-! ### The ALU's set (R110, R120) -/

/-- The ALU refuses an operation exactly if it is none of its eight. -/
theorem alu_eq_unsupportedOperation_iff (op : Mnemonic) (a b : Byte) :
    alu op a b = .error (.unsupportedOperation op) ↔
      op ∉ [Mnemonic.add, .mul, .cmp, .and, .or, .xor, .not, .shl] := by
  cases op with
  | add | mul | cmp | and | or | xor | not | shl => exact iff_of_false nofun (by decide)
  | hlt | ldi | prn | push | pop | call | ret | jmp | jeq | jne => exact iff_of_true rfl (by decide)

/-- A fetch's fault is the decoder's, which knows no ALU. -/
theorem fetch_ne_unsupportedOperation (opc : Config.OpcodeMap) (s : State) (op : Mnemonic) :
    fetch opc s ≠ .error (.unsupportedOperation op) := by
  intro h
  unfold fetch at h
  split at h
  next => cases h
  next e _ => cases e <;> cases h

/-- No instruction asks the ALU for an operation outside its set (decision D22). -/
theorem effect_run_ne_unsupportedOperation {s t : State} {i : Instr} (hr : s.run = .running) (h : Effect s i t)
    (op : Mnemonic) : t.run ≠ .faulted (.unsupportedOperation op) := by
  rcases effect_run h with hs | ⟨-, hs⟩ | ⟨b, -, rfl⟩ | ⟨-, -, rfl⟩
  · simp [hs, hr]
  · simp [hs]
  · simp
  · simp

/-- Settles O33: the ALU's answer by operation, and a step's end by what a fetch and an instruction can raise. -/
theorem unsupportedOperationIsUnreachable : Obligations.UnsupportedOperationIsUnreachable := by
  refine ⟨alu_eq_unsupportedOperation_iff, fun s t op h ht => ?_⟩
  obtain ⟨hr, ⟨i, -, he⟩ | ⟨f, hf, rfl⟩⟩ := stepWith_cases h
  · exact effect_run_ne_unsupportedOperation hr he op ht
  · obtain rfl : f = .unsupportedOperation op := RunState.faulted.inj ht
    exact fetch_ne_unsupportedOperation defaultOpcodes s op hf

end Sys2Proof.Machine
end

section
/-! PROOFS. JEQ and JNE, alone and after a CMP (44_control_transfer.md R145, R146; 42_alu.md R119). -/

namespace Sys2Proof.Machine

theorem exec_jeq (s : State) (r : RegIndex) :
    exec (.jeq (regByte r)) s = .next (if s.flagE then s.jump (s.reg r) else s.advance 2) := by
  cases hE : s.flagE with
  | true => exact exec_of_effect (.jeqTaken r hE)
  | false => exact exec_of_effect (.jeqPassed r hE)

theorem exec_jne (s : State) (r : RegIndex) :
    exec (.jne (regByte r)) s = .next (if s.flagE then s.advance 2 else s.jump (s.reg r)) := by
  cases hE : s.flagE with
  | true => exact exec_of_effect (.jnePassed r hE)
  | false => exact exec_of_effect (.jneTaken r hE)

/-- Settles O43: CMP leaves E saying whether the bytes are equal and moves the PC by 3, and each branch reads E alone. -/
theorem branchFollowsTheComparison : Obligations.BranchFollowsTheComparison := by
  intro s a b r
  obtain ⟨t, hcmp, hE, -, -, -, hpc, hregs, -, -⟩ := cmpSetsExactlyOneFlag s a b
  have hequal : t.flagE = decide (s.reg a = s.reg b) := hE.trans (decide_eq_decide.2 BitVec.toNat_inj)
  have htarget : t.reg r = s.reg r := hregs r List.not_mem_nil
  refine ⟨t, _, _, hcmp, exec_jeq t r, exec_jne t r, ?_⟩
  by_cases h : s.reg a = s.reg b <;> simp [hequal, h, htarget, hpc]

end Sys2Proof.Machine
end

section
/-! PROOFS. PUSH and POP, alone and one after the other (43_stack.md R130 to R134), and the empty stack (R133, 44_control_transfer.md R143). -/

namespace Sys2Proof.Machine

/-- A pop writes its register and R7 alone. -/
theorem sameRegsExcept_popped (s : State) (r : RegIndex) : SameRegsExcept [r, 7] s (popped s r) := fun _ hk =>
  popped_reg_other s (List.ne_of_not_mem_cons hk) (List.ne_of_not_mem_cons (List.not_mem_of_not_mem_cons hk))

/-- Settles O35: PUSH's one effect is the push of the byte that its register holds after the decrement. -/
theorem pushStoresBelowTheStack : Obligations.PushStoresBelowTheStack := by
  intro s r hs
  have hsp := pushed_sp s ((lowered s).reg r)
  have hregs := sameRegsExcept_pushed s ((lowered s).reg r)
  have htop := (pushed_read s ((lowered s).reg r) hs).trans (lowered_reg s r)
  exact ⟨_, exec_of_effect (.push r), hsp, hregs, htop,
    fun _ ha => pushed_read_other s _ (List.ne_of_not_mem_cons ha), rfl, rfl, rfl, rfl, rfl⟩

/-- Settles O36: POP's effect off the sentinel. R7 holds the byte loaded before it is incremented, so POP R7 leaves that byte plus 1. -/
theorem popLoadsTheTopOfTheStack : Obligations.PopLoadsTheTopOfTheStack := by
  intro s r hsp
  refine ⟨_, exec_of_effect (.pop r hsp), fun hr => ⟨popped_reg_same s hr, popped_sp s hr⟩, ?_,
    sameRegsExcept_popped s r, fun _ _ => rfl, rfl, rfl, rfl, rfl, rfl⟩
  rintro rfl
  exact popped_sp_seven s

/-- Settles O37: the effects of POP and RET at the sentinel report, and then advance or jump. -/
theorem emptyStackIsReportedAndSkipped : Obligations.EmptyStackIsReportedAndSkipped := fun _ r hsp =>
  ⟨exec_of_effect (.popEmpty r hsp), exec_of_effect (.retEmpty r hsp)⟩

/-- A push lands SP on the sentinel exactly from the byte above it. -/
theorem sub_one_eq_sentinel_iff {v : Byte} : v - 1 = 0xF4#8 ↔ v = 0xF5#8 := sub_eq_iff_eq_add

/-- A push and a pop that leave SP as it was leave every register alone but the pop's. -/
theorem sameRegsExcept_of_push_pop {s t u : State} {q : RegIndex} (hpush : SameRegsExcept [7] s t)
    (hpop : SameRegsExcept [q, 7] t u) (hsp : u.sp = s.sp) : SameRegsExcept [q] s u := by
  intro k hk
  by_cases hk7 : k = 7
  · rw [hk7]; exact hsp
  · have hkq : k ≠ q := List.ne_of_not_mem_cons hk
    exact (hpop k (by simp [hkq, hk7])).trans (hpush k (by simp [hk7]))

theorem SameRunAndStreams.trans {s t u : State} (h : SameRunAndStreams s t) (h' : SameRunAndStreams t u) :
    SameRunAndStreams s u := by
  obtain ⟨hrun, hout, hdiag⟩ := h
  obtain ⟨hrun', hout', hdiag'⟩ := h'
  exact ⟨hrun'.trans hrun, hout'.trans hout, hdiag'.trans hdiag⟩

/-- Settles O38: POP's rule for the stack that PUSH left, which is empty exactly if SP was 0xF5. -/
theorem pushThenPopRestores : Obligations.PushThenPopRestores := by
  intro s r q hs
  obtain ⟨t, hpush, htsp, htregs, htop, -, htpc, -, htrun⟩ := pushStoresBelowTheStack s r hs
  by_cases hedge : s.sp = 0xF5#8
  · have hempty : t.sp = 0xF4#8 := htsp.trans (sub_one_eq_sentinel_iff.2 hedge)
    refine ⟨t, _, hpush, (emptyStackIsReportedAndSkipped t q hempty).1, fun hne => absurd hedge hne, fun _ => ?_⟩
    rw [htpc]
  · have hnonempty : t.sp ≠ 0xF4#8 := fun h => hedge (sub_one_eq_sentinel_iff.1 (htsp.symm.trans h))
    obtain ⟨u, hpop, hload, -, huregs, -, -, -, hurun⟩ := popLoadsTheTopOfTheStack t q hnonempty
    refine ⟨t, u, hpush, hpop, fun _ hq => ?_, fun h => absurd h hedge⟩
    obtain ⟨hreg, husp⟩ := hload hq
    have hvalue : u.reg q = if r = 7 then s.sp - 1 else s.reg r := by rw [hreg, htsp, htop]
    have hrestored : u.sp = s.sp := by rw [husp, htsp, BitVec.sub_add_cancel]
    exact ⟨hvalue, hrestored, sameRegsExcept_of_push_pop htregs huregs hrestored, htrun.trans hurun⟩

end Sys2Proof.Machine
end

section
/-! PROOFS. CALL and RET, alone and one after the other (44_control_transfer.md R141 to R143, R147), and JMP, JEQ and JNE (R144 to R146). -/

namespace Sys2Proof.Machine

/-! ### CALL and RET -/

/-- CALL with a return address pushes it as a byte, and jumps to its register as the push left it (R141, R142). -/
theorem exec_call (s : State) (r : RegIndex) (h : s.pc + 2 < 256) :
    ∃ ret : Byte, ret.toNat = s.pc + 2 ∧
      exec (.call (regByte r)) s = .next ((pushed s ret).jump ((pushed s ret).reg r)) :=
  ⟨_, returnAddress_bound h, exec_of_effect (.call r h)⟩

/-- Settles O40: the effect of CALL is the push of its return address, or the fault where there is none. The jump reads the register after
the push, so R7 gives the decremented SP. -/
theorem callPushesTheReturnAddress : Obligations.CallPushesTheReturnAddress := by
  refine fun s r hs => ⟨fun hpc => ?_, fun hpc => exec_of_effect (.callFault r hpc)⟩
  obtain ⟨ret, hret, hcall⟩ := exec_call s r (Nat.lt_succ_of_le hpc)
  have hsp := pushed_sp s ret
  have htop : ((pushed s ret).mem.read (s.sp - 1).toNat).toNat = s.pc + 2 := by rw [pushed_read s ret hs, hret]
  have htarget := congrArg BitVec.toNat (pushed_reg s ret r)
  exact ⟨_, hcall, hsp, sameRegsExcept_pushed s ret, htop,
    fun _ ha => pushed_read_other s ret (List.ne_of_not_mem_cons ha), htarget, rfl, rfl, rfl, rfl⟩

/-- Settles O41: RET's effect off the sentinel is the pop, and the jump reads the register as the pop left it. -/
theorem retPopsAndJumps : Obligations.RetPopsAndJumps := by
  intro s r hsp
  refine ⟨_, exec_of_effect (.ret r hsp), fun hr => ⟨popped_reg_same s hr, popped_sp s hr⟩, ?_, rfl,
    sameRegsExcept_popped s r, fun _ _ => rfl, rfl, rfl, rfl, rfl⟩
  rintro rfl
  exact popped_sp_seven s

/-- Settles O44: CALL leaves its return address in the cell at SP, off the sentinel, and RET pops that cell and jumps to it. -/
theorem retResumesAfterItsCall : Obligations.RetResumesAfterItsCall := by
  intro s t u r q hs hpc hedge hq hcall husp hucell
  obtain ⟨t', hcall', htsp, -, htop, -⟩ := (callPushesTheReturnAddress s r hs).1 hpc
  obtain rfl : t = t' := Host.Outcome.next.inj (hcall.symm.trans hcall')
  have hnonempty : u.sp ≠ 0xF4#8 := fun h => hedge (sub_one_eq_sentinel_iff.1 (by rw [← htsp, ← husp, h]))
  obtain ⟨v, hret, hload, -, hjump, -⟩ := retPopsAndJumps u q hnonempty
  obtain ⟨hreg, hvsp⟩ := hload hq
  have haddress : (v.reg q).toNat = s.pc + 2 := by rw [hreg, husp, hucell, htsp, htop]
  have hrestored : v.sp = s.sp := by rw [hvsp, husp, htsp, BitVec.sub_add_cancel]
  exact ⟨v, hret, hjump.trans haddress, hrestored, haddress⟩

/-! ### Jumps -/

theorem movesOnlyPc_jump (s : State) (a : Byte) : MovesOnlyPc s (s.jump a) a.toNat :=
  ⟨rfl, fun _ _ => rfl, rfl, fun _ _ => rfl, rfl, rfl, rfl⟩

theorem movesOnlyPc_advance (s : State) (n : Nat) : MovesOnlyPc s (s.advance n) (s.pc + n) :=
  ⟨rfl, fun _ _ => rfl, rfl, fun _ _ => rfl, rfl, rfl, rfl⟩

/-- Settles O42: the effect of JMP is a jump, and each branch jumps or advances as E says. -/
theorem jumpsMoveOnlyThePc : Obligations.JumpsMoveOnlyThePc := by
  intro s r
  have hE : s.fl.getLsbD 0 = s.flagE := rfl
  rw [hE]
  refine ⟨⟨_, exec_of_effect (.jmp r), movesOnlyPc_jump s _⟩, ⟨_, exec_jeq s r, ?_⟩, ⟨_, exec_jne s r, ?_⟩⟩
  · cases s.flagE with
    | true => exact movesOnlyPc_jump s _
    | false => exact movesOnlyPc_advance s 2
  · cases s.flagE with
    | true => exact movesOnlyPc_advance s 2
    | false => exact movesOnlyPc_jump s _

end Sys2Proof.Machine
end

section
/-! PROOFS. The ports: load, the run from reset, exit status and trace (60_exceptions.md R171, R172, R174, R175). -/

namespace Sys2Proof.Machine

/-! ### Load and run (R171, R172) -/

/-- All that the load port can do: it succeeds exactly on a program of at most 256 bytes, and then it has written memory alone. -/
theorem loadProgram_eq_ok_iff {prog : List Nat} {s t : State} :
    loadProgram prog s = .ok t ↔ prog.length ≤ 256 ∧ (∀ v ∈ prog, v ≤ 255) ∧
      t = { s with mem := writeBytes s.mem 0 (prog.map (BitVec.ofNat 8)) } := by
  unfold loadProgram
  split
  next hlong =>
    have : ¬ prog.length ≤ 256 := Nat.not_le.2 hlong
    simp [this]
  next hlen =>
    have hfit : prog.length ≤ 256 := Nat.not_lt.1 hlen
    split
    next v hv =>
      have hbig : 255 < v := by simpa using List.find?_some hv
      have hbad : ¬ ∀ v ∈ prog, v ≤ 255 := fun h => Nat.not_le.2 hbig (h v (List.mem_of_find?_eq_some hv))
      simp [hbad]
    next hv =>
      have hbytes : ∀ v ∈ prog, v ≤ 255 := by simpa using List.find?_eq_none.1 hv
      exact ⟨fun h => ⟨hfit, hbytes, (Except.ok.inj h).symm⟩, fun ⟨_, _, h⟩ => h ▸ rfl⟩

/-- A program's value is read back from the cell of its place in the program. -/
theorem read_loaded {m : Memory} (hm : m.wf) {prog : List Nat} (hlen : prog.length ≤ 256) {k v : Nat} (hv : v ≤ 255)
    (hk : prog[k]? = some v) : ((writeBytes m 0 (prog.map (BitVec.ofNat 8))).read k).toNat = v := by
  obtain ⟨hlt, -⟩ := List.getElem?_eq_some_iff.1 hk
  have hbyte : (prog.map (BitVec.ofNat 8))[k]? = some (BitVec.ofNat 8 v) := by rw [List.getElem?_map, hk, Option.map_some]
  have hread := read_writeBytes hm (a := 0) hbyte (by omega)
  rw [Nat.zero_add] at hread
  rw [hread, BitVec.toNat_ofNat]
  omega

/-- Settles O51: what a successful load leaves is `writeBytes` from 0, and a load that does not succeed is an error. -/
theorem loadWritesTheProgramFromZero : Obligations.LoadWritesTheProgramFromZero := by
  refine fun prog s hs => ⟨fun hlen hbytes => ?_, fun hbad => ?_⟩
  · refine ⟨_, loadProgram_eq_ok_iff.2 ⟨hlen, hbytes, rfl⟩, fun k v hk => ?_, fun a ha => ?_, wf_writeBytes hs 0 _, rfl⟩
    · exact read_loaded hs hlen (hbytes v (List.mem_of_getElem? hk)) hk
    · exact read_writeBytes_after _ (by simpa using ha)
  · cases h : loadProgram prog s with
    | error e => exact ⟨e, rfl⟩
    | ok t =>
      obtain ⟨hlen, hbytes, -⟩ := loadProgram_eq_ok_iff.1 h
      obtain hlong | ⟨v, hv, hbig⟩ := hbad
      · exact absurd hlen (Nat.not_le.2 hlong)
      · exact absurd (hbytes v hv) (Nat.not_le.2 hbig)

/-- What every step keeps, the loop keeps. -/
theorem runLoop_keeps {P : State → Prop} (hstep : ∀ s t, P s → step s = .next t → P t) (n : Nat) {s : State} (hs : P s) :
    P (runLoop n s) := by
  induction n generalizing s with
  | zero => exact hs
  | succ n ih =>
    by_cases hr : s.run = .running
    · obtain ⟨t, ht⟩ : ∃ t, step s = .next t := exists_stepWith_of_running defaultOpcodes hr
      rw [runLoop_of_next n ht]
      exact ih (hstep s t hs ht)
    · rwa [runLoop_of_not_running _ hr]

/-- A launch that succeeds is the loop from a program loaded into the reset state. -/
theorem exists_loaded_of_launch {prog : List Nat} {fuel : Nat} {s t : State} (h : launch prog fuel s = .ok t) :
    ∃ u, loadProgram prog State.reset = .ok u ∧ runLoop fuel u = t := by
  unfold launch resetPort at h
  cases hu : loadProgram prog State.reset with
  | error e => rw [hu] at h; cases h
  | ok u => rw [hu] at h; exact ⟨u, rfl, Except.ok.inj h⟩

/-- A load into a Running state with the invariant keeps the invariant: it leaves memory canonical and changes nothing else. -/
theorem loadProgram_keeps_inv {prog : List Nat} {s t : State} (hr : s.run = .running) (hs : Inv s)
    (h : loadProgram prog s = .ok t) : Inv t := by
  obtain ⟨hm, hp, hfl, -⟩ := hs
  obtain ⟨-, -, rfl⟩ := loadProgram_eq_ok_iff.1 h
  exact ⟨wf_writeBytes hm 0 _, hp, hfl, faultJustified_of_safe fun f => by simp [hr]⟩

/-- Settles O19: reset meets the invariant, the load keeps it there, and so does every step of the loop. -/
theorem everyRunKeepsTheInvariant : Obligations.EveryRunKeepsTheInvariant := by
  intro prog fuel s t h
  obtain ⟨u, hload, rfl⟩ := exists_loaded_of_launch h
  exact runLoop_keeps everyStepKeepsTheInvariant fuel (loadProgram_keeps_inv rfl resetMeetsTheInvariant hload)

/-! ### Exit status and fault record (R174) -/

theorem exitStatus_of_running (codes : ExitCodes) {s : State} (h : s.run = .running) : exitStatus codes s = none := by
  simp [exitStatus, h]

theorem exitStatus_of_halted (codes : ExitCodes) {s : State} (h : s.run = .halted) : exitStatus codes s = some 0 := by
  simp [exitStatus, h]

theorem exitStatus_of_faulted (codes : ExitCodes) {s : State} {f : FaultRecord} (h : s.run = .faulted f) :
    exitStatus codes s = some (codes.code f.kind) := by
  simp [exitStatus, h]

theorem faultReport_eq_some_iff {s : State} {f : FaultRecord} : faultReport s = some f ↔ s.run = .faulted f := by
  unfold faultReport
  cases s.run <;> simp

/-- Settles O52: one exit status for each run state, and EXIT_CODE is never 0. -/
theorem exitStatusTellsHowTheRunEnded : Obligations.ExitStatusTellsHowTheRunEnded := by
  intro codes s
  have hfault : ∀ f, s.run = .faulted f →
      exitStatus codes s = some (codes.code f.kind) ∧ exitStatus defaultExitCodes s = some 1 ∧ faultReport s = some f :=
    fun _ hf => ⟨exitStatus_of_faulted codes hf, exitStatus_of_faulted defaultExitCodes hf, faultReport_eq_some_iff.2 hf⟩
  have hsafe : (∀ f, s.run ≠ .faulted f) → faultReport s = none := fun h =>
    Option.eq_none_iff_forall_ne_some.2 fun f hf => h f (faultReport_eq_some_iff.1 hf)
  refine ⟨?_, ?_, ?_, hfault, hsafe⟩
  all_goals
    cases hr : s.run with
    | running => simp [exitStatus_of_running codes hr]
    | halted => simp [exitStatus_of_halted codes hr]
    | faulted f => simp [exitStatus_of_faulted codes hr, codes.nonzero]

/-! ### Trace (R175) -/

/-- A read is present exactly where there is a cell. -/
theorem memRead_toOption (s : State) (a : Nat) :
    (s.memRead a).toOption = if a ≤ 255 then some (s.mem.read a) else none := by
  split
  next h => rw [memRead_of_lt s (Nat.lt_succ_of_le h)]; rfl
  next h => rw [memRead_of_ge s (Nat.lt_of_not_le h)]; rfl

theorem trace_bytes_get (s : State) (k : Fin 3) : (trace s).bytes.get k = (s.memRead (s.pc + k.val)).toOption :=
  match k with
  | 0 => rfl
  | 1 => rfl
  | 2 => rfl

/-- Settles O53: each byte of the record is a memory read, absent where that read faults. -/
theorem traceShowsPcBytesAndRegisters : Obligations.TraceShowsPcBytesAndRegisters := fun s =>
  ⟨rfl, rfl, fun k => (trace_bytes_get s k).trans (memRead_toOption s (s.pc + k.val))⟩

end Sys2Proof.Machine
end
